-- ==== Sys2Proof/Word.lean ====
section
/-! DEFINITION. The unit's data types: the Byte and the order of the two halves (spec/00_scope.md R6, R8). -/

namespace Sys2Proof

/-- R6: "an 8-bit unsigned value, range 0–255". Every buffer element and the command word are Bytes. -/
abbrev Byte := BitVec 8

/-- R8: which half of a Byte comes first in the expanded form. It is an operand of each command and
is held in no register (R29). -/
inductive NybbleOrder where
  /-- the high nybble of a Byte precedes its low nybble -/
  | highFirst
  /-- the low nybble of a Byte precedes its high nybble -/
  | lowFirst
deriving DecidableEq, Repr

end Sys2Proof
end

