-- ==== Sys2Proof/Config.lean ====
section
/-! DEFINITION. The parameters of an instance of the unit (spec/00_scope.md R5; fixed for the life of
an instance, spec/70_reset_and_hazards.md R124). `BINDING` is open and not modelled (R5).
The spec asks a model to take `CAP` as an argument, and lets it take `OOR_POLICY` so. The form of
`exec` and `step` has no argument for them, so they stand in one constant field of the state
(notes/assumptions/1.md). The unit has no free value, so this file holds no opaque constant. -/

namespace Sys2Proof

/-- R5, D1: `CAP`, the largest input length the unit holds; `OBUF` has `2 * CAP` cells. -/
inductive Capacity where
  /-- a finite capacity, at least 1 in a well-formed parameter set -/
  | bounded (cells : Nat)
  /-- no bound: every bound check of the spec is vacuous -/
  | unbounded
deriving DecidableEq, Repr

/-- R5, R74, D2: what a combine does with an input element above 15. -/
inductive OorPolicy where
  /-- bits 7:4 of each element are not connected -/
  | mask
  /-- the command fails with InvalidNybble -/
  | reject
deriving DecidableEq, Repr

/-- The parameters of one instance. -/
structure Params where
  cap : Capacity
  oorPolicy : OorPolicy
deriving DecidableEq, Repr

/-- The parameters the model starts from. `OOR_POLICY` is `MASK`, the spec's value for this hardware
(R5). `CAP` is left open by the spec; `unbounded` here is a DESIGN CHOICE (notes/assumptions/1.md):
no statement rests on it. -/
def Config.params : Params := { cap := .unbounded, oorPolicy := .mask }

end Sys2Proof
end

