-- ==== Sys2Proof/Syntax.lean ====
section
/-! DEFINITION. The commands of the unit, one constructor per row of spec/opcode_table.json
(spec/30_encoding.md R58, R65). A command takes no operands: its data operand is the whole input
buffer and its order is part of the mnemonic (R57). -/

namespace Sys2Proof

/-- R58: the four commands. -/
inductive Instr where
  /-- `SPLIT.H`, word 0x10: split, HighFirst (spec/41_buffer_ops.md R83) -/
  | splitH
  /-- `SPLIT.L`, word 0x11: split, LowFirst (R84) -/
  | splitL
  /-- `COMBINE.H`, word 0x20: combine, HighFirst (R86) -/
  | combineH
  /-- `COMBINE.L`, word 0x21: combine, LowFirst (R87) -/
  | combineL
deriving DecidableEq, Repr

end Sys2Proof
end

