-- ==== Sys2Proof/WellFormed.lean ====
section
/-! DEFINITION. What a well-formed command and a well-formed parameter set are. The checks on host
transactions stand beside their type, in Sys2Proof/Machine/Event.lean. -/

namespace Sys2Proof

/-- R57: a command carries no immediate, no register number and no address, so nothing in it can be
out of range: every command is well formed. -/
def Instr.wellFormed : Instr → Bool
  | .splitH => true
  | .splitL => true
  | .combineH => true
  | .combineL => true

/-- R5: `CAP` is "a natural number at least 1, or `unbounded`". -/
def Capacity.wellFormed : Capacity → Bool
  | .bounded cells => 1 ≤ cells
  | .unbounded => true

/-- R5: both values of `OOR_POLICY` are legal, so only the capacity is checked. -/
def Params.wellFormed (p : Params) : Bool := p.cap.wellFormed

end Sys2Proof
end

