-- ==== Sys2Proof/Decode.lean ====
section
/-! DEFINITION. The command word: its fields, the decoder, total on all 256 Bytes, and the encoder
(spec/30_encoding.md R53 to R61). -/

namespace Sys2Proof

/-- Why a Byte is no command (R54, R55, R60). -/
inductive IllegalWord where
  /-- `RSV` is not 000, whatever `OPC` is (R55) -/
  | reservedBitsSet
  /-- `OPC` is none of the two operations (R54) -/
  | unknownOperation
deriving DecidableEq, Repr

/-- R54: bits 7:4, the operation. -/
def opcField (w : Byte) : BitVec 4 := w.extractLsb' 4 4

/-- R55: bits 3:1, reserved. -/
def rsvField (w : Byte) : BitVec 3 := w.extractLsb' 1 3

/-- R56: bit 0, the order. -/
def ordField (w : Byte) : BitVec 1 := w.extractLsb' 0 1

/-- R54: the operation code of a split. -/
def opcSplit : BitVec 4 := 0x1

/-- R54: the operation code of a combine. -/
def opcCombine : BitVec 4 := 0x2

/-- R56: 0 is HighFirst, 1 is LowFirst. -/
def orderOfBit (b : BitVec 1) : NybbleOrder :=
  if b = 0 then .highFirst else .lowFirst

/-- R56, read the other way. -/
def bitOfOrder : NybbleOrder → BitVec 1
  | .highFirst => 0
  | .lowFirst => 1

/-- R58: the split of an order. -/
def splitOf : NybbleOrder → Instr
  | .highFirst => .splitH
  | .lowFirst => .splitL

/-- R58: the combine of an order. -/
def combineOf : NybbleOrder → Instr
  | .highFirst => .combineH
  | .lowFirst => .combineL

/-- R59: the decode function. -/
def decode (w : Byte) : Except IllegalWord Instr :=
  if rsvField w ≠ 0 then .error .reservedBitsSet
  else if opcField w = opcSplit then .ok (splitOf (orderOfBit (ordField w)))
  else if opcField w = opcCombine then .ok (combineOf (orderOfBit (ordField w)))
  else .error .unknownOperation

/-- R54, R58: the operation code of a command. -/
def Instr.opc : Instr → BitVec 4
  | .splitH => opcSplit
  | .splitL => opcSplit
  | .combineH => opcCombine
  | .combineL => opcCombine

/-- R56, R58: the order of a command. -/
def Instr.order : Instr → NybbleOrder
  | .splitH => .highFirst
  | .splitL => .lowFirst
  | .combineH => .highFirst
  | .combineL => .lowFirst

/-- R53: format C, `OPC`, `RSV` = 000, `ORD`, from bit 7 down. -/
def encode (i : Instr) : Byte := i.opc ++ (0 : BitVec 3) ++ bitOfOrder i.order

/-- The decoder on a word numbered as spec/opcode_table.json numbers its rows: a command is one Byte,
and bits above `nbits` are 0. -/
def decodeTableWord (nbits w : Nat) : Option Instr :=
  match decode (BitVec.ofNat 8 (w % 2 ^ nbits)) with
  | .ok i => some i
  | .error _ => none

end Sys2Proof
end

