-- ==== Sys2Proof/Machine/Event.lean ====
section
/-! DEFINITION. What reaches the unit from outside: the host's transactions (spec/20_memory.md R34,
R38 to R42) and reset (spec/70_reset_and_hazards.md R120), and the values its reads return. -/

namespace Sys2Proof.Machine

/-- R34: the two buffer spaces. The third space, `REG`, has transactions of its own. -/
inductive BufSpace where
  | ibuf
  | obuf
deriving DecidableEq, Repr

/-- R14: a step of the machine is one host transaction or one reset. -/
inductive Event where
  /-- R38: a read of the register with this index -/
  | regRead (r : Nat)
  /-- R39: a write of the register with this index; a command is a write of register 0 -/
  | regWrite (r : Nat) (v : Nat)
  /-- R41, R42: a read of one buffer cell -/
  | bufRead (space : BufSpace) (i : Nat)
  /-- R40, R42: a write of one buffer cell -/
  | bufWrite (space : BufSpace) (i : Nat) (v : Byte)
  /-- R120: reset, with no arguments -/
  | reset
deriving DecidableEq, Repr

/-- R38, R41, R42: what a read returns, a Byte or (for `ILEN` and `OLEN`) a natural number. -/
inductive ReadValue where
  | byte (b : Byte)
  | length (n : Nat)
deriving DecidableEq, Repr

/-- R28: whether `n` is a legal `ILEN`, that is, at most `CAP`. -/
def legalLength : Capacity → Nat → Bool
  | .bounded cells, n => n ≤ cells
  | .unbounded, _ => true

/-- R18, R34: whether the input cell with this index exists. -/
def inputCellExists : Capacity → Nat → Bool
  | .bounded cells, i => i < cells
  | .unbounded, _ => true

/-- R20, R34: whether the output cell with this index exists; there are `2 * CAP`. -/
def outputCellExists : Capacity → Nat → Bool
  | .bounded cells, j => j < 2 * cells
  | .unbounded, _ => true

/-- R34: whether the cell exists in its space. -/
def cellExists (cap : Capacity) : BufSpace → Nat → Bool
  | .ibuf, i => inputCellExists cap i
  | .obuf, j => outputCellExists cap j

/-- R27, R34: there are four registers, indices 0 to 3. -/
def registerExists (r : Nat) : Bool := r < 4

/-- R28, R34, R39: a transaction names a register or a cell that exists, writes a Byte to `CMD` and a
length of at most `CAP` to `ILEN`. -/
def Event.wellFormed (p : Params) : Event → Bool
  | .regRead r => registerExists r
  | .regWrite 0 v => v < 256
  | .regWrite 2 v => legalLength p.cap v
  | .regWrite r _ => registerExists r
  | .bufRead space i => cellExists p.cap space i
  | .bufWrite space i _ => cellExists p.cap space i
  | .reset => true

end Sys2Proof.Machine
end

