-- ==== Sys2Proof/Machine/State.lean ====
section
/-! DEFINITION. The state of the machine and the reasons a step can stop (spec/10_state.md). -/

namespace Sys2Proof.Machine

/-- The cells of one buffer: (index, Byte) pairs, indices strictly rising. A cell that is not listed
holds no value (spec/93_implementation_defined.md U2, U3; notes/assumptions/4.md and 5.md). -/
abbrev Memory := List Host.Cell

/-- The canonical form of a memory. A cell that is not listed holds no value, so no listed pair can
equal what an unlisted one reads as. -/
abbrev Memory.wf (m : Memory) : Prop := m.Pairwise (fun a b => a.1 < b.1)

/-- The five state elements of the unit (spec/10_state.md, spec/00_scope.md section 7), and three
fields of the model's own. -/
structure State where
  /-- R18: `IBUF`, the input cells -/
  ibuf : Memory
  /-- R19: `ILEN`, the input length -/
  ilen : Nat
  /-- R20: `OBUF`, the output cells -/
  obuf : Memory
  /-- R21: `OLEN`, the output length -/
  olen : Nat
  /-- R23: `STATUS.ERR`, the fault code of the most recent command -/
  err : BitVec 2
  /-- the model's own: `CAP` and `OOR_POLICY` of this instance (R5, R124; notes/assumptions/1.md) -/
  params : Params
  /-- the model's own: what the host has still to do, oldest first (notes/assumptions/2.md) -/
  pending : List Event
  /-- the model's own: what the host's reads returned, oldest first (notes/assumptions/3.md) -/
  returned : List ReadValue
deriving DecidableEq, Repr

/-- Steps that stop because they name something that does not exist
(spec/93_implementation_defined.md U6: "there is no such register or cell"). The spec gives them no
transition; stopping is safe (notes/assumptions/7.md). The command faults of
spec/60_exceptions.md are not here: the machine goes on after them (`CommandFault`). -/
inductive Fault where
  /-- raised by a register read or write with index 4 or more (R27, U6); safe -/
  | noSuchRegister
  /-- raised by a host access to an `IBUF` index of `CAP` or more (R40, R41, U6); safe -/
  | noSuchInputCell
  /-- raised by a host access to an `OBUF` index of `2 * CAP` or more (R42, U6); safe -/
  | noSuchOutputCell
deriving DecidableEq, Repr

/-- Steps the spec tells the model to refuse (spec/93_implementation_defined.md U2 to U4). -/
inductive Refusal where
  /-- answered by `exec` for an instruction with no meaning yet; safe; no arm of this model uses it -/
  | notModelled (mnemonic : String)
  /-- raised by a command whose `IN` covers a cell that holds no value (R122, R125, U2); safe -/
  | inputNotLoaded
  /-- raised by a host read of an `IBUF` cell that holds no value (R41, R122, U2); safe -/
  | inputCellUnwritten
  /-- raised by a host read of an `OBUF` cell at or above `OLEN` (R42, U3); safe -/
  | outputNotVisible
  /-- raised by a host write of `ILEN` above `CAP` (R28, R39, U4); safe -/
  | lengthAboveCapacity
  /-- raised by a host write to `CMD` of a value that is no Byte (R39; notes/assumptions/8.md); safe -/
  | commandNotAByte
deriving DecidableEq, Repr

/-- What one step of this machine answers. -/
abbrev Outcome := Host.Outcome State Fault Refusal

/-- R33, R120: the unit right after reset. No cell holds a value. -/
def State.reset : State where
  ibuf := []
  ilen := 0
  obuf := []
  olen := 0
  err := 0
  params := Config.params
  pending := []
  returned := []

end Sys2Proof.Machine
end

