-- ==== Sys2Proof/Machine/Flags.lean ====
section
/-! DEFINITION. `STATUS.ERR`, the unit's only status: the command faults, their codes and the `STATUS`
register (spec/10_state.md R22 to R26, spec/60_exceptions.md R102). There are no other flags (R26). -/

namespace Sys2Proof.Machine

/-- R102: the faults a command can end with. The machine goes on after one (R107, R109). -/
inductive CommandFault where
  /-- R103: a combine with an odd `ILEN` -/
  | invalidLength
  /-- R104: a word that decodes to no command -/
  | illegalCommand
  /-- R105: under `REJECT`, a combine with an element above 15 -/
  | invalidNybble
deriving DecidableEq, Repr

/-- R102: the code of a fault. -/
def CommandFault.code : CommandFault → BitVec 2
  | .invalidLength => 1
  | .illegalCommand => 2
  | .invalidNybble => 3

/-- R102: the code of a command that succeeds. -/
def noFault : BitVec 2 := 0

/-- R23, R38: `STATUS` as the host reads it, `ERR` in bits 1:0 and the reserved bits 7:2 zero. -/
def statusByte (err : BitVec 2) : Byte := (0 : BitVec 6) ++ err

end Sys2Proof.Machine
end

