-- ==== Sys2Proof/Machine/Ops.lean ====
section
/-! DEFINITION. The named operations over the cells and the registers: reading and writing one cell,
laying a sequence out from index 0, and the ways a step changes the state. `failCommand` is the entry
of a command fault (spec/60_exceptions.md R107); there is no return from one (R110). -/

namespace Sys2Proof.Machine

/-- The value of a cell, or none where it holds no value. -/
def Memory.read : Memory → Nat → Option Byte
  | [], _ => none
  | (b, x) :: m, a => if a = b then some x else Memory.read m a

/-- R40: the cell holds the value; every other cell is as before. The canonical form is kept. -/
def Memory.write : Memory → Nat → Byte → Memory
  | [], a, v => [(a, v)]
  | (b, x) :: m, a, v =>
    if a < b then (a, v) :: (b, x) :: m
    else if a = b then (a, v) :: m
    else (b, x) :: Memory.write m a v

/-- R43: element `k` of a sequence in the cell at index `base + k`, and no other cell. -/
def Memory.layFrom : Nat → List Byte → Memory
  | _, [] => []
  | base, b :: bs => (base, b) :: Memory.layFrom (base + 1) bs

/-- R43: a sequence laid out from index 0. -/
def Memory.ofBytes (bs : List Byte) : Memory := Memory.layFrom 0 bs

/-- R12: the `n` cells from index `a` as a sequence, or none where one of them holds no value. -/
def Memory.readRange (m : Memory) : Nat → Nat → Option (List Byte)
  | _, 0 => some []
  | a, n + 1 =>
    match Memory.read m a, Memory.readRange m (a + 1) n with
    | some b, some bs => some (b :: bs)
    | _, _ => none

/-- R81, `Succeed(R)`: `OUT` is the result and nothing of the previous command's result survives. The
cells at or above the new `OLEN` hold no value (R122, U3; notes/assumptions/4.md). -/
def succeedCommand (result : List Byte) (s : State) : State :=
  { s with obuf := Memory.ofBytes result, olen := result.length, err := noFault }

/-- R107, `Fail(E)`: the output is empty and the code is in `STATUS.ERR`. Every output cell is now at
or above `OLEN` and holds no value (R122, U3; notes/assumptions/4.md). -/
def failCommand (e : CommandFault) (s : State) : State :=
  { s with obuf := [], olen := 0, err := e.code }

/-- R39: `ILEN <- n`. -/
def setInputLength (n : Nat) (s : State) : State := { s with ilen := n }

/-- R40: `IBUF[i] <- v`, and nothing else; in particular not `ILEN`. -/
def writeInput (i : Nat) (v : Byte) (s : State) : State :=
  { s with ibuf := Memory.write s.ibuf i v }

/-- A read returns its value to the host and changes no state of the unit (R38, R41, R42). -/
def returnValue (v : ReadValue) (s : State) : State := { s with returned := s.returned ++ [v] }

/-- R120: every piece of the unit's state to its reset value. The parameters do not change (R124), and
reset is not an event of the host's script or of its record (notes/assumptions/9.md). -/
def resetUnit (s : State) : State :=
  { State.reset with params := s.params, pending := s.pending, returned := s.returned }

/-- The host's first event has been taken up. -/
def setPending (es : List Event) (s : State) : State := { s with pending := es }

/-- R38: the value of a register as the host reads it, or none for a register that does not exist. -/
def readRegister (s : State) : Nat → Option ReadValue
  | 0 => some (.byte 0x00)
  | 1 => some (.byte (statusByte s.err))
  | 2 => some (.length s.ilen)
  | 3 => some (.length s.olen)
  | _ => none

end Sys2Proof.Machine
end

