-- ==== Sys2Proof/Machine/Operands.lean ====
section
/-! DEFINITION. The operand of every command is the input buffer `IN`, read in place
(spec/30_encoding.md R57); the host reads the output buffer `OUT`. The order of the command arranges
the two halves (spec/30_encoding.md R63). -/

namespace Sys2Proof.Machine

/-- R13, R19: `IN = IBUF[0..ILEN)`, or none where one of its cells holds no value. -/
def readInput (s : State) : Option (List Byte) := Memory.readRange s.ibuf 0 s.ilen

/-- R13, R21: `OUT = OBUF[0..OLEN)`. -/
def readOutput (s : State) : Option (List Byte) := Memory.readRange s.obuf 0 s.olen

/-- R63, R82: the two elements a (high, low) pair becomes. -/
def emit : NybbleOrder → Byte × Byte → List Byte
  | .highFirst, (h, l) => [h, l]
  | .lowFirst, (h, l) => [l, h]

/-- R85: which element of a pair `(a, b)` of the input is the high and which the low operand. -/
def arrange : NybbleOrder → Byte → Byte → Byte × Byte
  | .highFirst, a, b => (a, b)
  | .lowFirst, a, b => (b, a)

end Sys2Proof.Machine
end

