-- ==== Sys2Proof/Machine/Primitives.lean ====
section
/-! DEFINITION. The splitter cell and the combiner cell (spec/40_primitives.md). They hold no state and
are not commands (spec/30_encoding.md R61); the commands are defined in terms of them. -/

namespace Sys2Proof.Machine

/-- R4: the nybble mask. -/
def nybbleMask : Byte := 0xF

/-- R69: the source's `highNybble`. -/
def hi (b : Byte) : Byte := (b >>> 4) &&& nybbleMask

/-- R70: the source's `lowNybble`. -/
def lo (b : Byte) : Byte := b &&& nybbleMask

/-- R71: the source's `nybblesFromByte`, always (high, low). -/
def pair (b : Byte) : Byte × Byte := (hi b, lo b)

/-- R79: the Byte is a well-formed container, that is, at most 15. -/
def inRange (v : Byte) : Bool := v ≤ 15

/-- R72: the bare expression, for operands in range. -/
def packInRange (h l : Byte) : Byte := (h <<< 4) ||| l

/-- R74 under `MASK`: bits 7:4 of the operands are not connected. -/
def packMasked (h l : Byte) : Byte := packInRange (h &&& nybbleMask) (l &&& nybbleMask)

/-- R72, R74: the source's `byteFromNybbles` under each value of `OOR_POLICY`. -/
def pack : OorPolicy → Byte → Byte → Except CommandFault Byte
  | .mask, h, l => .ok (packMasked h l)
  | .reject, h, l =>
    if inRange h && inRange l then .ok (packInRange h l) else .error .invalidNybble

/-- R78: the Byte with its halves exchanged. The operands are in range, so the policy does not matter. -/
def swap (b : Byte) : Byte := packInRange (lo b) (hi b)

end Sys2Proof.Machine
end

