-- ==== Sys2Proof/Machine/Combine.lean ====
section
/-! DEFINITION. `COMBINE.H` and `COMBINE.L` (spec/41_buffer_ops.md R85 to R87). -/

namespace Sys2Proof.Machine

/-- R85, the loop: pairs in sequence, the first failing pair decides. An unpaired last element is
never met, since the length is tested before. -/
def combinePairs (p : OorPolicy) (o : NybbleOrder) : List Byte → Except CommandFault (List Byte)
  | a :: b :: rest =>
    match pack p (arrange o a b).1 (arrange o a b).2, combinePairs p o rest with
    | .error e, _ => .error e
    | .ok _, .error e => .error e
    | .ok x, .ok xs => .ok (x :: xs)
  | _ => .ok []

/-- R85: the source's `combine`. The length is tested first, before any pair is read (R103). -/
def combine (p : OorPolicy) (o : NybbleOrder) (d : List Byte) : Except CommandFault (List Byte) :=
  if d.length % 2 = 1 then .error .invalidLength else combinePairs p o d

/-- R81, R85, R103, R108: a combine of the input buffer. An odd `ILEN` fails before any element is
read (notes/assumptions/6.md); then a cell of `IN` that holds no value refuses the step (R122, U2;
notes/assumptions/5.md). -/
def combineInput (o : NybbleOrder) (s : State) : Outcome :=
  if s.ilen % 2 = 1 then .next (failCommand .invalidLength s)
  else
    match readInput s with
    | none => .refused .inputNotLoaded
    | some d =>
      match combine s.params.oorPolicy o d with
      | .ok result => .next (succeedCommand result s)
      | .error e => .next (failCommand e s)

/-- R86: `COMBINE.H`. -/
def execCombineH (s : State) : Outcome := combineInput .highFirst s

/-- R87: `COMBINE.L`. -/
def execCombineL (s : State) : Outcome := combineInput .lowFirst s

end Sys2Proof.Machine
end

