-- ==== Sys2Proof/Machine/Split.lean ====
section
/-! DEFINITION. `SPLIT.H` and `SPLIT.L` (spec/41_buffer_ops.md R82 to R84). -/

namespace Sys2Proof.Machine

/-- R82: the source's `split`, total on every sequence and both orders. -/
def split (o : NybbleOrder) : List Byte → List Byte
  | [] => []
  | b :: bs => emit o (pair b) ++ split o bs

/-- R81, R82: a split of the input buffer. It has no failure condition; a cell of `IN` that holds no
value refuses the step (R122, U2; notes/assumptions/5.md). -/
def splitInput (o : NybbleOrder) (s : State) : Outcome :=
  match readInput s with
  | some bs => .next (succeedCommand (split o bs) s)
  | none => .refused .inputNotLoaded

/-- R83: `SPLIT.H`. -/
def execSplitH (s : State) : Outcome := splitInput .highFirst s

/-- R84: `SPLIT.L`. -/
def execSplitL (s : State) : Outcome := splitInput .lowFirst s

end Sys2Proof.Machine
end

