-- ==== Sys2Proof/Machine/Dispatch.lean ====
section
/-! DEFINITION. The meaning of each command, one arm per constructor (spec/30_encoding.md R58). -/

namespace Sys2Proof.Machine

def exec (i : Instr) (s : State) : Host.Outcome State Fault Refusal :=
  match i with
  | .splitH => Sys2Proof.Machine.execSplitH s
  | .splitL => Sys2Proof.Machine.execSplitL s
  | .combineH => Sys2Proof.Machine.execCombineH s
  | .combineL => Sys2Proof.Machine.execCombineL s

end Sys2Proof.Machine
end

