-- ==== Sys2Proof/Machine/Transactions.lean ====
section
/-! DEFINITION. What each host transaction does, and reset (spec/20_memory.md R38 to R42,
spec/41_buffer_ops.md R81, spec/70_reset_and_hazards.md R120). Each is one atomic step (R48). -/

namespace Sys2Proof.Machine

/-- R81, `Execute(w)`: a write of the Byte `w` to `CMD`. An illegal word fails without reading `IBUF`
or looking at `ILEN` (R60, R104). -/
def execute (w : Byte) (s : State) : Outcome :=
  match decode w with
  | .ok i => exec i s
  | .error _ => .next (failCommand .illegalCommand s)

/-- R39: a write to `CMD`; the value is a Byte (notes/assumptions/8.md). -/
def writeCommand (v : Nat) (s : State) : Outcome :=
  if v < 256 then execute (BitVec.ofNat 8 v) s else .refused .commandNotAByte

/-- R28, R39: a write to `ILEN`. -/
def writeLength (v : Nat) (s : State) : Outcome :=
  if legalLength s.params.cap v then .next (setInputLength v s) else .refused .lengthAboveCapacity

/-- R38: `RegRead(r)`. -/
def regRead (r : Nat) (s : State) : Outcome :=
  match readRegister s r with
  | some v => .next (returnValue v s)
  | none => .fault .noSuchRegister

/-- R39: `RegWrite(r, v)`; writes to `STATUS` and `OLEN` are ignored. -/
def regWrite (r v : Nat) (s : State) : Outcome :=
  match r with
  | 0 => writeCommand v s
  | 1 => .next s
  | 2 => writeLength v s
  | 3 => .next s
  | _ => .fault .noSuchRegister

/-- R41: `BufRead(IBUF, i)`. -/
def readInputCell (i : Nat) (s : State) : Outcome :=
  if inputCellExists s.params.cap i then
    match Memory.read s.ibuf i with
    | some b => .next (returnValue (.byte b) s)
    | none => .refused .inputCellUnwritten
  else .fault .noSuchInputCell

/-- R42: `BufRead(OBUF, j)`; only the cells below `OLEN` are visible. -/
def readOutputCell (j : Nat) (s : State) : Outcome :=
  if outputCellExists s.params.cap j then
    if j < s.olen then
      match Memory.read s.obuf j with
      | some b => .next (returnValue (.byte b) s)
      | none => .refused .outputNotVisible
    else .refused .outputNotVisible
  else .fault .noSuchOutputCell

/-- R41, R42: `BufRead(space, i)`. -/
def bufRead (space : BufSpace) (i : Nat) (s : State) : Outcome :=
  match space with
  | .ibuf => readInputCell i s
  | .obuf => readOutputCell i s

/-- R40: `BufWrite(i, v)`; R42: a host write to the `OBUF` space is ignored. -/
def bufWrite (space : BufSpace) (i : Nat) (v : Byte) (s : State) : Outcome :=
  match space with
  | .ibuf => if inputCellExists s.params.cap i then .next (writeInput i v s) else .fault .noSuchInputCell
  | .obuf => if outputCellExists s.params.cap i then .next s else .fault .noSuchOutputCell

/-- R14: one step's work. -/
def perform (e : Event) (s : State) : Outcome :=
  match e with
  | .regRead r => regRead r s
  | .regWrite r v => regWrite r v s
  | .bufRead space i => bufRead space i s
  | .bufWrite space i v => bufWrite space i v s
  | .reset => .next (resetUnit s)

/-- R49: events in the order the host performs them, each complete before the next begins. -/
def performAll : List Event → State → Outcome
  | [], s => .next s
  | e :: es, s =>
    match perform e s with
    | .next t => performAll es t
    | .fault f => .fault f
    | .refused r => .refused r

/-- The oldest pending event is taken up and performed. With nothing pending the unit is idle and
nothing changes (R116, R123; notes/assumptions/2.md). -/
def performPending (s : State) : Outcome :=
  match s.pending with
  | [] => .next s
  | e :: es => perform e (setPending es s)

/-- The command word `w` as the next event the host performs. -/
def queueCommand (w : Byte) (s : State) : State :=
  setPending (.regWrite 0 w.toNat :: s.pending) s

end Sys2Proof.Machine
end

