-- ==== Sys2Proof/Machine/Step.lean ====
section
/-! DEFINITION. One step of the machine: one host transaction or one reset (spec/00_scope.md R14). The
unit fetches nothing (spec/10_state.md R16); what comes next is the host's, in `State.pending`
(notes/assumptions/2.md). -/

namespace Sys2Proof.Machine

/-- R14, R49: the oldest pending event, performed whole. -/
def step (s : State) : Host.Outcome State Fault Refusal := performPending s

/-- A command comes to the unit as a host write of `CMD` (R22): that write, as the next event. -/
def State.withFetchWord (s : State) (nbits w : Nat) : State :=
  queueCommand (BitVec.ofNat 8 (w % 2 ^ nbits)) s

end Sys2Proof.Machine
end

