-- ==== Sys2Proof/Machine/Script.lean ====
section
/-! DEFINITION. The host's script statements and pseudo-instructions (spec/30_encoding.md R65 to R67),
as the transactions each expands to. A script's position belongs to the host and is no state of the
unit (spec/10_state.md R16, R30). -/

namespace Sys2Proof.Machine

/-- R66, R67: one statement of a host script. -/
inductive Statement where
  /-- `WRB i, v` -/
  | wrb (i : Nat) (v : Byte)
  /-- `RDB IBUF, i` and `RDB OBUF, j` -/
  | rdb (space : BufSpace) (i : Nat)
  /-- `WR ILEN, n` -/
  | wrIlen (n : Nat)
  /-- `RD STATUS` -/
  | rdStatus
  /-- `RD ILEN` -/
  | rdIlen
  /-- `RD OLEN` -/
  | rdOlen
  /-- `WR CMD, w` -/
  | wrCmd (w : Byte)
  /-- a command mnemonic -/
  | command (i : Instr)
  /-- `LOAD [b0, b1, ...]` -/
  | load (bs : List Byte)
  /-- `CLEAR` -/
  | clear
  /-- `MOVE` -/
  | move
  /-- `READOUT` -/
  | readout
  /-- `CHECK` -/
  | check
deriving DecidableEq, Repr

/-- R67: the cell writes of `LOAD`, from index `i` on. -/
def loadCells : Nat → List Byte → List Event
  | _, [] => []
  | i, b :: bs => .bufWrite .ibuf i b :: loadCells (i + 1) bs

/-- R67: the body of `MOVE` for cell `j`: the value read is the value written. Where the cell holds no
value the read is refused and there is nothing to write. -/
def moveCell (obuf : Memory) (j : Nat) : List Event :=
  match Memory.read obuf j with
  | some v => [.bufRead .obuf j, .bufWrite .ibuf j v]
  | none => [.bufRead .obuf j]

/-- R67: the loop of `MOVE`, `n` cells from index `j` on. -/
def moveCells (obuf : Memory) : Nat → Nat → List Event
  | _, 0 => []
  | j, n + 1 => moveCell obuf j ++ moveCells obuf (j + 1) n

/-- R67: the loop of `READOUT`, `n` cells from index `j` on. -/
def readCells : Nat → Nat → List Event
  | _, 0 => []
  | j, n + 1 => .bufRead .obuf j :: readCells (j + 1) n

/-- R66, R67: the transactions of a statement. `MOVE` and `READOUT` use what the unit's `OLEN` and
`OBUF` hold when the statement begins; none of their own transactions changes it
(notes/assumptions/11.md). -/
def Statement.events (s : State) : Statement → List Event
  | .wrb i v => [.bufWrite .ibuf i v]
  | .rdb space i => [.bufRead space i]
  | .wrIlen n => [.regWrite 2 n]
  | .rdStatus => [.regRead 1]
  | .rdIlen => [.regRead 2]
  | .rdOlen => [.regRead 3]
  | .wrCmd w => [.regWrite 0 w.toNat]
  | .command i => [.regWrite 0 (encode i).toNat]
  | .load bs => loadCells 0 bs ++ [.regWrite 2 bs.length]
  | .clear => [.regWrite 2 0]
  | .move => .regRead 3 :: moveCells s.obuf 0 s.olen ++ [.regWrite 2 s.olen]
  | .readout => .regRead 3 :: readCells 0 s.olen
  | .check => [.regRead 1]

/-- R66: the statement's transactions, in order. -/
def Statement.perform (st : Statement) (s : State) : Outcome := performAll (st.events s) s

/-- R67: after `CHECK` "the host stops the script if the value is not `0x00`". -/
def Statement.goesOn (t : State) : Statement → Bool
  | .check => statusByte t.err = 0
  | _ => true

/-- R66: a host script, its statements performed one after the other. -/
def runScript : List Statement → State → Outcome
  | [], s => .next s
  | st :: rest, s =>
    match st.perform s with
    | .next t => if st.goesOn t then runScript rest t else .next t
    | .fault f => .fault f
    | .refused r => .refused r

end Sys2Proof.Machine
end

