-- ==== Sys2Proof/Machine/System.lean ====
section
/-! DEFINITION. Several units (spec/60_exceptions.md R114, R115): each a complete copy of the state,
nothing shared. The platform decides which unit's host acts next; the model takes that choice as an
argument (notes/assumptions/10.md). -/

namespace Sys2Proof.Machine

/-- R114: any number of units, without identifiers of their own; an index is the platform's. -/
abbrev System := List State

/-- R114: one step of the unit at index `k`; every other unit is as before. A stop of that unit is a
stop of this step. None where there is no such unit. -/
def System.stepAt (units : System) (k : Nat) : Option (Host.Outcome System Fault Refusal) :=
  match units[k]? with
  | none => none
  | some s =>
    match step s with
    | .next t => some (.next (units.set k t))
    | .fault f => some (.fault f)
    | .refused r => some (.refused r)

end Sys2Proof.Machine
end

