-- ==== Sys2Proof/Safety.lean ====
section
/-! DEFINITION. What claims use: the well-formed states, and the transactions the spec's rules allow in
a state. -/

namespace Sys2Proof.Machine

/-- The well-formed states of the unit. -/
structure UnitInv (s : State) : Prop where
  /-- R5: `CAP` is at least 1 -/
  params_wf : s.params.wellFormed = true
  /-- the input cells are in canonical form -/
  ibuf_wf : Memory.wf s.ibuf
  /-- R18: only cells that exist hold a value -/
  ibuf_cells : ∀ c ∈ s.ibuf, inputCellExists s.params.cap c.1 = true
  /-- R19, R28: `ILEN` is at most `CAP` -/
  ilen_legal : legalLength s.params.cap s.ilen = true
  /-- R20, R21: the cells of `OBUF` that hold a value are exactly those below `OLEN`, in order -/
  obuf_cells : s.obuf.map Prod.fst = List.range s.olen
  /-- R20, R21: `OLEN` is at most `2 * CAP`: every cell below it exists -/
  olen_legal : ∀ j < s.olen, outputCellExists s.params.cap j = true
  /-- R107, R130: after a fault the output is empty -/
  fault_empties : s.err ≠ 0 → s.olen = 0
  /-- R24, R105: code 3 appears only under `REJECT` -/
  code_three : s.err = 3 → s.params.oorPolicy = .reject

/-- R125: every cell of `IN` has been written since reset. -/
def inputLoaded (s : State) : Prop := ∀ i < s.ilen, (Memory.read s.ibuf i).isSome = true

/-- R59, R103, R104, R125: the command this word starts reads no cell that holds no value. An illegal
word and a combine of odd length read no cell. -/
def commandReady (w : Byte) (s : State) : Prop :=
  match decode w with
  | .error _ => True
  | .ok .splitH => inputLoaded s
  | .ok .splitL => inputLoaded s
  | .ok .combineH => s.ilen % 2 = 1 ∨ inputLoaded s
  | .ok .combineL => s.ilen % 2 = 1 ∨ inputLoaded s

/-- The events the spec gives an effect in this state: the event is well formed (U4, U6), a command
finds its input loaded (U2), a read of an input cell finds a value (U2), a read of an output cell is
below `OLEN` (U3). -/
def allowed (e : Event) (s : State) : Prop :=
  e.wellFormed s.params = true ∧
    match e with
    | .regWrite 0 v => commandReady (BitVec.ofNat 8 v) s
    | .bufRead .ibuf i => (Memory.read s.ibuf i).isSome = true
    | .bufRead .obuf j => j < s.olen
    | _ => True

/-- R57, R98: what every command leaves as it was: every input cell, `ILEN`, the parameters, what is
pending and what the host's reads returned (the last three are fields of the model's own). A command
writes `OBUF`, `OLEN` and `STATUS.ERR`. -/
structure CommandFrame (s t : State) : Prop where
  input_cells : ∀ a, Memory.read t.ibuf a = Memory.read s.ibuf a
  ibuf : t.ibuf = s.ibuf
  ilen : t.ilen = s.ilen
  params : t.params = s.params
  pending : t.pending = s.pending
  returned : t.returned = s.returned

/-- R107: the output is empty: `OLEN` is 0 and no output cell holds a value. -/
def outputEmpty (t : State) : Prop := t.olen = 0 ∧ ∀ j, Memory.read t.obuf j = none

/-- R79: every element of the input buffer is at most 15. -/
def inputInRange (s : State) : Prop :=
  ∀ k < s.ilen, ∀ b, Memory.read s.ibuf k = some b → b.toNat ≤ 15

end Sys2Proof.Machine
end

