-- ==== Sys2Proof/Certificates/Slice0/Obligations.lean ====
section
/-! DEFINITION. The statements for the provers, in the order of spec/: the command word, the cells, the
buffer functions and their laws, the commands, the transactions, reset, the whole machine, the host's
script. A statement about every state holds for every value of `CAP` and `OOR_POLICY`, which the state
carries (notes/assumptions/1.md). -/

open Sys2Proof Sys2Proof.Machine

/-! The command word. -/

/-- R58: the four legal words, their commands and orders, and the two mask and match pairs. -/
def Obligations.LegalWordsDecode : Prop :=
  (decode 0x10 = .ok .splitH ∧ decode 0x11 = .ok .splitL ∧
    decode 0x20 = .ok .combineH ∧ decode 0x21 = .ok .combineL) ∧
  (Instr.splitH = splitOf .highFirst ∧ Instr.splitL = splitOf .lowFirst ∧
    Instr.combineH = combineOf .highFirst ∧ Instr.combineL = combineOf .lowFirst) ∧
  (∀ w : Byte, w &&& 0xFE = 0x10 ↔ ∃ o, decode w = .ok (splitOf o)) ∧
  (∀ w : Byte, w &&& 0xFE = 0x20 ↔ ∃ o, decode w = .ok (combineOf o))

/-- R54, R55, R56, R59: the decode function, on the fields read as numbers. -/
def Obligations.DecodeFollowsFields : Prop :=
  ∀ w : Byte,
    let order : NybbleOrder := if w.toNat % 2 = 0 then .highFirst else .lowFirst
    (w.toNat / 2 % 8 ≠ 0 → ∃ r, decode w = .error r) ∧
    (w.toNat / 2 % 8 = 0 → w.toNat / 16 = 1 → decode w = .ok (splitOf order)) ∧
    (w.toNat / 2 % 8 = 0 → w.toNat / 16 = 2 → decode w = .ok (combineOf order)) ∧
    (w.toNat / 16 ≠ 1 → w.toNat / 16 ≠ 2 → ∃ r, decode w = .error r)

/-- Decode and encode agree, both ways: a command has exactly one word. -/
def Obligations.DecodeInvertsEncode : Prop :=
  (∀ i : Instr, i.wellFormed = true → decode (encode i) = .ok i) ∧
  (∀ (w : Byte) (i : Instr), decode w = .ok i → encode i = w)

/-- From R60 and R104: every word but the four fails with IllegalCommand in every state, whatever the
input buffer holds: `OLEN` is 0, `ERR` is 2, and the input is as it was. That no output cell holds a
value is not in R60 or R104: it is R122 and U3 as the model reads them (notes/assumptions/4.md,
DEDUCED). -/
def Obligations.IllegalWordFails : Prop :=
  (∀ w : Byte, (∃ r, decode w = .error r) ↔ w ∉ [0x10, 0x11, 0x20, 0x21]) ∧
  ∀ (w : Byte) (s : State), w ∉ [0x10, 0x11, 0x20, 0x21] →
    ∃ t, execute w s = .next t ∧ outputEmpty t ∧ t.err = 2 ∧ CommandFrame s t

/-! One step. -/

/-- A step whose oldest event is a `CMD` write of the word `w` runs the command `w` decodes to, or
fails with IllegalCommand, in the state with that event taken up. -/
def Obligations.StepRunsDecodedCommand : Prop :=
  ∀ (s : State) (w : Byte) (rest : List Event), s.pending = .regWrite 0 w.toNat :: rest →
    (∀ i, decode w = .ok i → step s = exec i { s with pending := rest }) ∧
    (∀ r, decode w = .error r → step s = .next (failCommand .illegalCommand { s with pending := rest }))

/-- The model's choice (notes/assumptions/2.md, 9.md): a step takes up the oldest pending event, with
nothing pending it changes nothing, and a reset keeps what is pending and what reads returned. -/
def Obligations.StepTakesOldestEvent : Prop :=
  (∀ s : State, s.pending = [] → step s = .next s) ∧
  (∀ (s : State) (e : Event) (rest : List Event), s.pending = e :: rest →
    step s = perform e { s with pending := rest }) ∧
  (∀ s t : State, perform .reset s = .next t → t.pending = s.pending ∧ t.returned = s.returned)

/-- The word placed by `withFetchWord` is the one the very next step runs. -/
def Obligations.PlacedWordRunsNext : Prop :=
  ∀ (i : Instr) (s : State), step (s.withFetchWord 8 (encode i).toNat) = exec i s

/-! The cells. -/

/-- R69, R70, R71: the splitter cell. -/
def Obligations.SplitterCellValues : Prop :=
  ∀ b : Byte,
    hi b = (b >>> 4) &&& 0xF ∧ (hi b).toNat = b.toNat / 16 ∧
    lo b = b &&& 0xF ∧ (lo b).toNat = b.toNat % 16 ∧
    pair b = (hi b, lo b) ∧ (hi b = lo b ↔ b.toNat % 17 = 0)

/-- R72: the combiner cell on operands in range, under both policies. -/
def Obligations.PackInRange : Prop :=
  ∀ (p : OorPolicy) (h l : Byte), h.toNat ≤ 15 → l.toNat ≤ 15 →
    pack p h l = .ok ((h <<< 4) ||| l) ∧ ((h <<< 4) ||| l).toNat = 16 * h.toNat + l.toNat ∧
    (pack p h l = pack p l h ↔ h = l)

/-- R74: the combiner cell on every pair of Bytes, under each policy. -/
def Obligations.PackOutOfRange : Prop :=
  (∀ h l : Byte, pack .mask h l = .ok (((h &&& 0xF) <<< 4) ||| (l &&& 0xF))) ∧
  (∀ h l : Byte, 15 < h.toNat ∨ 15 < l.toNat → pack .reject h l = .error .invalidNybble) ∧
  (∀ h l : Byte, h.toNat ≤ 15 → l.toNat ≤ 15 → pack .reject h l = .ok ((h <<< 4) ||| l))

/-- R75, R76: reassembly, and extraction after packing. -/
def Obligations.CellsAreInverse : Prop :=
  (∀ (p : OorPolicy) (b : Byte), pack p (hi b) (lo b) = .ok b) ∧
  (∀ (p : OorPolicy) (h l x : Byte), h.toNat ≤ 15 → l.toNat ≤ 15 → pack p h l = .ok x →
    hi x = h ∧ lo x = l) ∧
  (∀ h l x : Byte, pack .mask h l = .ok x → hi x = h &&& 0xF ∧ lo x = l &&& 0xF)

/-- R78: the Byte with its halves exchanged. -/
def Obligations.SwapExchangesHalves : Prop :=
  ∀ (p : OorPolicy) (b : Byte),
    pack p (lo b) (hi b) = .ok (swap b) ∧ (swap b).toNat = 16 * (b.toNat % 16) + b.toNat / 16 ∧
    swap (swap b) = b ∧ (swap b = b ↔ hi b = lo b)

/-! The buffer functions and their laws. -/

/-- R63, R82, R88: the length of a split and each of its elements. -/
def Obligations.SplitElements : Prop :=
  ∀ (o : NybbleOrder) (B : List Byte),
    (split o B).length = 2 * B.length ∧
    ∀ (k : Nat) (b : Byte), B[k]? = some b →
      (split o B)[2 * k]? = some (match o with | .highFirst => hi b | .lowFirst => lo b) ∧
      (split o B)[2 * k + 1]? = some (match o with | .highFirst => lo b | .lowFirst => hi b)

/-- R73, R92: everything the splitter cell and a split produce is in range. -/
def Obligations.SplitOutputInRange : Prop :=
  (∀ b : Byte, (hi b).toNat ≤ 15 ∧ (lo b).toNat ≤ 15) ∧
  ∀ (o : NybbleOrder) (B : List Byte), ∀ x ∈ split o B,
    x.toNat ≤ 15 ∧ x &&& 0xF0 = 0 ∧ inRange x = true

/-- R85: the outcome of a combine: the fault, or the length of the result and each of its elements. -/
def Obligations.CombineOutcome : Prop :=
  ∀ (p : OorPolicy) (o : NybbleOrder) (D : List Byte),
    (D.length % 2 = 1 → combine p o D = .error .invalidLength) ∧
    (D.length % 2 = 0 → p = .reject → (∃ v ∈ D, 15 < v.toNat) → combine p o D = .error .invalidNybble) ∧
    (D.length % 2 = 0 → (p = .mask ∨ ∀ v ∈ D, v.toNat ≤ 15) →
      ∃ R, combine p o D = .ok R ∧ 2 * R.length = D.length ∧
        ∀ (k : Nat) (a b : Byte), D[2 * k]? = some a → D[2 * k + 1]? = some b →
          ∃ x, R[k]? = some x ∧
            pack p (match o with | .highFirst => a | .lowFirst => b)
              (match o with | .highFirst => b | .lowFirst => a) = .ok x)

/-- R89: a combine needs an even length and halves it; an odd length signals InvalidLength for both
orders. -/
def Obligations.CombineLength : Prop :=
  ∀ (p : OorPolicy) (o : NybbleOrder) (D : List Byte),
    (D.length % 2 = 1 → combine p o D = .error .invalidLength) ∧
    (∀ R, combine p o D = .ok R → D.length % 2 = 0 ∧ R.length = D.length / 2)

/-- From R91: the empty buffer, as a law of the functions and on the unit. That no output cell holds a
value is not in R91: it is R122 and U3 as the model reads them (notes/assumptions/4.md, DEDUCED). -/
def Obligations.EmptyBuffer : Prop :=
  (∀ (p : OorPolicy) (o : NybbleOrder), split o [] = [] ∧ combine p o [] = .ok []) ∧
  ∀ (i : Instr) (s : State), s.ilen = 0 →
    ∃ t, exec i s = .next t ∧ outputEmpty t ∧ t.err = 0 ∧ CommandFrame s t

/-- R93: combining with the other order exchanges the halves of every Byte, and the result differs
from the original exactly when some Byte has unequal halves. -/
def Obligations.OrderMismatch : Prop :=
  ∀ (p : OorPolicy) (B : List Byte),
    combine p .lowFirst (split .highFirst B) = .ok (B.map swap) ∧
    combine p .highFirst (split .lowFirst B) = .ok (B.map swap) ∧
    (B.map swap ≠ B ↔ ∃ b ∈ B, hi b ≠ lo b)

/-- R94: a split after a combine of even length: the input, with bits 7:4 cleared under `MASK`. -/
def Obligations.SplitAfterCombine : Prop :=
  (∀ (p : OorPolicy) (o : NybbleOrder) (D : List Byte), D.length % 2 = 0 → (∀ v ∈ D, v.toNat ≤ 15) →
    ∃ R, combine p o D = .ok R ∧ split o R = D) ∧
  (∀ (o : NybbleOrder) (D : List Byte), D.length % 2 = 0 →
    ∃ R, combine .mask o D = .ok R ∧ split o R = D.map (fun v => v &&& 0xF))

/-- R95: chunks. A combine of two even chunks is the two results joined, and fails when either
fails. -/
def Obligations.ChunksJoin : Prop :=
  (∀ (o : NybbleOrder) (A B : List Byte), split o (A ++ B) = split o A ++ split o B) ∧
  (∀ (p : OorPolicy) (o : NybbleOrder) (D E : List Byte), D.length % 2 = 0 → E.length % 2 = 0 →
    (∀ R T, combine p o D = .ok R → combine p o E = .ok T → combine p o (D ++ E) = .ok (R ++ T)) ∧
    (∀ e, combine p o D = .error e ∨ combine p o E = .error e → combine p o (D ++ E) = .error e))

/-- R96: a split is one to one; a combine of in-range buffers of even length is a bijection onto all
buffers with the split as its inverse; under `MASK` a combine of any even buffers is onto but not one
to one. -/
def Obligations.OneToOne : Prop :=
  (∀ (o : NybbleOrder) (A B : List Byte), split o A = split o B → A = B) ∧
  (∀ (p : OorPolicy) (o : NybbleOrder) (D E R : List Byte),
    (∀ v ∈ D, v.toNat ≤ 15) → (∀ v ∈ E, v.toNat ≤ 15) →
    combine p o D = .ok R → combine p o E = .ok R → D = E ∧ split o R = D) ∧
  (∀ (p : OorPolicy) (o : NybbleOrder) (B : List Byte),
    (split o B).length % 2 = 0 ∧ (∀ v ∈ split o B, v.toNat ≤ 15) ∧ combine p o (split o B) = .ok B) ∧
  (combine .mask .highFirst [0x1A, 0x25] = .ok [0xA5] ∧ combine .mask .highFirst [0x0A, 0x05] = .ok [0xA5] ∧
    combine .mask .lowFirst [0x25, 0x1A] = .ok [0xA5] ∧ combine .mask .lowFirst [0x05, 0x0A] = .ok [0xA5])

/-- R97: the two orders compared. -/
def Obligations.OrdersCompared : Prop :=
  (∀ (B : List Byte), split .lowFirst B = split .highFirst (B.map swap) ∧
    ∀ k, (split .lowFirst B)[2 * k]? = (split .highFirst B)[2 * k + 1]? ∧
      (split .lowFirst B)[2 * k + 1]? = (split .highFirst B)[2 * k]?) ∧
  (∀ (p : OorPolicy) (D R : List Byte), combine p .highFirst D = .ok R →
    combine p .lowFirst D = .ok (R.map swap)) ∧
  (∀ (p : OorPolicy) (D : List Byte) (e : CommandFault),
    combine p .highFirst D = .error e ↔ combine p .lowFirst D = .error e)

/-! The commands. -/

/-- From R83: `SPLIT.H` completes on every loaded input of any length, with the high half of each Byte
first. The last clause, that the cells from `2 * ILEN` on hold no value, is not in R83: it is R122 and
U3 as the model reads them (notes/assumptions/4.md, DEDUCED). -/
def Obligations.SplitHighResult : Prop :=
  encode .splitH = 0x10 ∧
  ∀ s : State, inputLoaded s →
    ∃ t, exec .splitH s = .next t ∧ t.olen = 2 * s.ilen ∧ t.err = 0 ∧ CommandFrame s t ∧
      (∀ k < s.ilen, ∀ b : Byte, Memory.read s.ibuf k = some b →
        Memory.read t.obuf (2 * k) = some (hi b) ∧ Memory.read t.obuf (2 * k + 1) = some (lo b)) ∧
      (∀ j, 2 * s.ilen ≤ j → Memory.read t.obuf j = none)

/-- From R84: `SPLIT.L` completes on every loaded input of any length, with the low half of each Byte
first. The last clause, that the cells from `2 * ILEN` on hold no value, is not in R84: it is R122 and
U3 as the model reads them (notes/assumptions/4.md, DEDUCED). -/
def Obligations.SplitLowResult : Prop :=
  encode .splitL = 0x11 ∧
  ∀ s : State, inputLoaded s →
    ∃ t, exec .splitL s = .next t ∧ t.olen = 2 * s.ilen ∧ t.err = 0 ∧ CommandFrame s t ∧
      (∀ k < s.ilen, ∀ b : Byte, Memory.read s.ibuf k = some b →
        Memory.read t.obuf (2 * k) = some (lo b) ∧ Memory.read t.obuf (2 * k + 1) = some (hi b)) ∧
      (∀ j, 2 * s.ilen ≤ j → Memory.read t.obuf j = none)

/-- From R86: `COMBINE.H`: the result, where it succeeds; InvalidLength on an odd length, whatever the
cells hold; InvalidNybble under `REJECT` on a loaded even input with an element above 15. Two clauses
are the model's reading and not in R86: that no output cell at or above `OLEN` holds a value is R122
and U3 as read by notes/assumptions/4.md (DEDUCED), and that an odd `ILEN` over unwritten cells fails,
where U2 would refuse the command, is R103 as read by notes/assumptions/6.md (DEDUCED). -/
def Obligations.CombineHighResult : Prop :=
  encode .combineH = 0x20 ∧
  ∀ s : State,
    (s.ilen % 2 = 0 → inputLoaded s → (s.params.oorPolicy = .mask ∨ inputInRange s) →
      ∃ t, exec .combineH s = .next t ∧ t.olen = s.ilen / 2 ∧ t.err = 0 ∧ CommandFrame s t ∧
        (∀ k < s.ilen / 2, ∀ a b : Byte, Memory.read s.ibuf (2 * k) = some a →
          Memory.read s.ibuf (2 * k + 1) = some b →
          Memory.read t.obuf k = some (((a &&& 0xF) <<< 4) ||| (b &&& 0xF))) ∧
        (∀ j, s.ilen / 2 ≤ j → Memory.read t.obuf j = none)) ∧
    (s.ilen % 2 = 1 →
      ∃ t, exec .combineH s = .next t ∧ outputEmpty t ∧ t.err = 1 ∧ CommandFrame s t) ∧
    (s.ilen % 2 = 0 → inputLoaded s → s.params.oorPolicy = .reject → ¬ inputInRange s →
      ∃ t, exec .combineH s = .next t ∧ outputEmpty t ∧ t.err = 3 ∧ CommandFrame s t)

/-- From R87: `COMBINE.L`: as `COMBINE.H` with the first element of each pair the low half. Two clauses
are the model's reading and not in R87: that no output cell at or above `OLEN` holds a value is R122
and U3 as read by notes/assumptions/4.md (DEDUCED), and that an odd `ILEN` over unwritten cells fails,
where U2 would refuse the command, is R103 as read by notes/assumptions/6.md (DEDUCED). -/
def Obligations.CombineLowResult : Prop :=
  encode .combineL = 0x21 ∧
  ∀ s : State,
    (s.ilen % 2 = 0 → inputLoaded s → (s.params.oorPolicy = .mask ∨ inputInRange s) →
      ∃ t, exec .combineL s = .next t ∧ t.olen = s.ilen / 2 ∧ t.err = 0 ∧ CommandFrame s t ∧
        (∀ k < s.ilen / 2, ∀ a b : Byte, Memory.read s.ibuf (2 * k) = some a →
          Memory.read s.ibuf (2 * k + 1) = some b →
          Memory.read t.obuf k = some (((b &&& 0xF) <<< 4) ||| (a &&& 0xF))) ∧
        (∀ j, s.ilen / 2 ≤ j → Memory.read t.obuf j = none)) ∧
    (s.ilen % 2 = 1 →
      ∃ t, exec .combineL s = .next t ∧ outputEmpty t ∧ t.err = 1 ∧ CommandFrame s t) ∧
    (s.ilen % 2 = 0 → inputLoaded s → s.params.oorPolicy = .reject → ¬ inputInRange s →
      ∃ t, exec .combineL s = .next t ∧ outputEmpty t ∧ t.err = 3 ∧ CommandFrame s t)

/-- R102, R103, R105, R108: which code a command leaves, exactly: 2 for an illegal word, 1 for a
combine of odd length, 3 under `REJECT` for a combine of even length with an element above 15, and 0
in every other case. -/
def Obligations.FaultCodeCauses : Prop :=
  ∀ (w : Byte) (s t : State), execute w s = .next t →
    (t.err = 2 ↔ w ∉ [0x10, 0x11, 0x20, 0x21]) ∧
    (t.err = 1 ↔ w ∈ [0x20, 0x21] ∧ s.ilen % 2 = 1) ∧
    (t.err = 3 ↔ w ∈ [0x20, 0x21] ∧ s.ilen % 2 = 0 ∧ s.params.oorPolicy = .reject ∧ ¬ inputInRange s)

/-- R98: no command, whatever its word and whether it succeeds or fails, changes the input or anything
but `OBUF`, `OLEN` and `STATUS.ERR`. -/
def Obligations.CommandKeepsInput : Prop :=
  ∀ (w : Byte) (s t : State), execute w s = .next t → CommandFrame s t

/-- From R107: after a command that failed `STATUS.ERR` is the code of a fault, `OLEN` is 0, the input is
as it was, and a host read of any output cell stops. That the state is `failCommand e s`, with no output
cell holding a value, is not in R107, which writes no cell: it is R122 and U3 as the model reads them
(notes/assumptions/4.md, DEDUCED). -/
def Obligations.FailureLeavesNoResult : Prop :=
  ∀ (w : Byte) (s t : State), execute w s = .next t → t.err ≠ 0 →
    (∃ e : CommandFault, t = failCommand e s ∧ t.err = e.code) ∧
      outputEmpty t ∧ CommandFrame s t ∧ ∀ j u, perform (.bufRead .obuf j) t ≠ .next u

/-- From R32: what a command writes depends on the command word, the input buffer and `OOR_POLICY` only.
The two output buffers are equal as whole data, cells at or above `OLEN` among them: that rests on
those cells holding no value, which is R122 and U3 as the model reads them (notes/assumptions/4.md,
DEDUCED). Under R81 alone old bytes could differ there. -/
def Obligations.CommandIsStateless : Prop :=
  ∀ (w : Byte) (s s' : State), s.ilen = s'.ilen →
    (∀ k < s.ilen, Memory.read s.ibuf k = Memory.read s'.ibuf k) →
    s.params.oorPolicy = s'.params.oorPolicy →
    ∀ t, execute w s = .next t →
      ∃ t', execute w s' = .next t' ∧ t'.obuf = t.obuf ∧ t'.olen = t.olen ∧ t'.err = t.err

/-- From R122 and U2: after reset no cell holds a value, and a step that would read a cell without one is
refused: a command over it, a host read of it, and a host read of an output cell at or above `OLEN`.
Two points are the model's: a combine of even length is refused before any element is looked at, also
under `REJECT` where an earlier pair has an element above 15 (notes/assumptions/5.md, DESIGN CHOICE),
and a combine of odd length is left out because it fails before it reads a cell
(notes/assumptions/6.md, DEDUCED). -/
def Obligations.CellsWithoutValueAreRefused : Prop :=
  (∀ s t : State, perform .reset s = .next t →
    ∀ a, Memory.read t.ibuf a = none ∧ Memory.read t.obuf a = none) ∧
  (∀ s : State, ¬ inputLoaded s →
    exec .splitH s = .refused .inputNotLoaded ∧ exec .splitL s = .refused .inputNotLoaded ∧
    (s.ilen % 2 = 0 → exec .combineH s = .refused .inputNotLoaded ∧
      exec .combineL s = .refused .inputNotLoaded)) ∧
  (∀ (s : State) (i : Nat), cellExists s.params.cap .ibuf i = true → Memory.read s.ibuf i = none →
    perform (.bufRead .ibuf i) s = .refused .inputCellUnwritten) ∧
  (∀ (s : State) (j : Nat), cellExists s.params.cap .obuf j = true → s.olen ≤ j →
    perform (.bufRead .obuf j) s = .refused .outputNotVisible)

/-! The transactions. -/

/-- R38: a register read returns its value and changes no state of the unit. -/
def Obligations.RegReadReturns : Prop :=
  ∀ s : State,
    perform (.regRead 0) s = .next { s with returned := s.returned ++ [.byte 0x00] } ∧
    (∃ b : Byte, b.toNat = s.err.toNat ∧
      perform (.regRead 1) s = .next { s with returned := s.returned ++ [.byte b] }) ∧
    perform (.regRead 2) s = .next { s with returned := s.returned ++ [.length s.ilen] } ∧
    perform (.regRead 3) s = .next { s with returned := s.returned ++ [.length s.olen] }

/-- R28, R39: a register write: a command, nothing, a new `ILEN` or a refusal, nothing. -/
def Obligations.RegWriteEffects : Prop :=
  ∀ s : State,
    (∀ w : Byte, perform (.regWrite 0 w.toNat) s = execute w s) ∧
    (∀ v, perform (.regWrite 1 v) s = .next s) ∧
    (∀ v, s.params.cap = .unbounded → perform (.regWrite 2 v) s = .next { s with ilen := v }) ∧
    (∀ v cells, s.params.cap = .bounded cells → v ≤ cells →
      perform (.regWrite 2 v) s = .next { s with ilen := v }) ∧
    (∀ v cells, s.params.cap = .bounded cells → cells < v →
      perform (.regWrite 2 v) s = .refused .lengthAboveCapacity) ∧
    (∀ v, perform (.regWrite 3 v) s = .next s)

/-- R40: a write of an input cell that exists: that cell holds the value and everything else is as
before, `ILEN` among it. -/
def Obligations.BufWriteEffect : Prop :=
  ∀ (s : State) (i : Nat) (v : Byte),
    (s.params.cap = .unbounded ∨ ∃ cells, s.params.cap = .bounded cells ∧ i < cells) →
    ∃ t, perform (.bufWrite .ibuf i v) s = .next t ∧ Memory.read t.ibuf i = some v ∧
      (∀ a, a ≠ i → Memory.read t.ibuf a = Memory.read s.ibuf a) ∧
      t = { s with ibuf := t.ibuf }

/-- From R41: a read of an input cell: the last value the host wrote there, whatever events other than
writes of that cell and resets came between, and no change of the unit. The second clause, that a cell
with no value is refused, is not in R41, which calls the value unspecified: it is R122 and U2 as taken
by notes/assumptions/5.md (DESIGN CHOICE). -/
def Obligations.InputCellKeepsLastWrite : Prop :=
  (∀ (s t u : State) (i : Nat) (v : Byte) (es : List Event),
    perform (.bufWrite .ibuf i v) s = .next t → (∀ e ∈ es, e ≠ .reset ∧ ∀ x, e ≠ .bufWrite .ibuf i x) →
    performAll es t = .next u →
      perform (.bufRead .ibuf i) u = .next { u with returned := u.returned ++ [.byte v] }) ∧
  (∀ (s : State) (i : Nat), cellExists s.params.cap .ibuf i = true → Memory.read s.ibuf i = none →
    perform (.bufRead .ibuf i) s = .refused .inputCellUnwritten)

/-- R42: in a well-formed state every output cell below `OLEN` can be read, no cell at or above it
can, and a host write to the output space changes nothing. -/
def Obligations.OutputCellAccess : Prop :=
  ∀ s : State, UnitInv s →
    (∀ j < s.olen, ∃ b, Memory.read s.obuf j = some b ∧
      perform (.bufRead .obuf j) s = .next { s with returned := s.returned ++ [.byte b] }) ∧
    (∀ j, cellExists s.params.cap .obuf j = true → s.olen ≤ j →
      perform (.bufRead .obuf j) s = .refused .outputNotVisible) ∧
    (∀ j v, cellExists s.params.cap .obuf j = true → perform (.bufWrite .obuf j v) s = .next s)

/-- The model's choice of a fault (notes/assumptions/7.md) for what spec/93_implementation_defined.md
U6 refuses: registers 4 and above, input cells from `CAP` on, output cells from `2 * CAP` on. -/
def Obligations.NoSuchRegisterOrCell : Prop :=
  ∀ s : State,
    (∀ r, 4 ≤ r → perform (.regRead r) s = .fault .noSuchRegister ∧
      ∀ v, perform (.regWrite r v) s = .fault .noSuchRegister) ∧
    (∀ cells i, s.params.cap = .bounded cells → cells ≤ i →
      perform (.bufRead .ibuf i) s = .fault .noSuchInputCell ∧
      ∀ v, perform (.bufWrite .ibuf i v) s = .fault .noSuchInputCell) ∧
    (∀ cells j, s.params.cap = .bounded cells → 2 * cells ≤ j →
      perform (.bufRead .obuf j) s = .fault .noSuchOutputCell ∧
      ∀ v, perform (.bufWrite .obuf j v) s = .fault .noSuchOutputCell)

/-- From R48: a read changes nothing of the unit and repeats its value; repeating a write, a command
or a reset changes nothing. -/
def Obligations.RepeatedTransactions : Prop :=
  (∀ (s t : State) (e : Event), ((∃ r, e = .regRead r) ∨ ∃ space i, e = .bufRead space i) →
    perform e s = .next t →
      ∃ v, t = { s with returned := s.returned ++ [v] } ∧
        perform e t = .next { t with returned := t.returned ++ [v] }) ∧
  (∀ (s t : State) (e : Event),
    ((∃ r v, e = .regWrite r v) ∨ (∃ space i v, e = .bufWrite space i v) ∨ e = .reset) →
    perform e s = .next t → perform e t = .next t)

/-- R126: in a well-formed state the cell writes and the `ILEN` write may come in any order. -/
def Obligations.SetUpOrderFree : Prop :=
  ∀ s : State, UnitInv s →
    (∀ i j v w, i ≠ j →
      performAll [.bufWrite .ibuf i v, .bufWrite .ibuf j w] s =
        performAll [.bufWrite .ibuf j w, .bufWrite .ibuf i v] s) ∧
    (∀ i v n, cellExists s.params.cap .ibuf i = true → legalLength s.params.cap n = true →
      performAll [.bufWrite .ibuf i v, .regWrite 2 n] s =
        performAll [.regWrite 2 n, .bufWrite .ibuf i v] s)

/-! Reset. -/

/-- R33: the unit right after reset, and that it is the state a `SPLIT` of the empty buffer leaves
there. -/
def Obligations.ResetStateValues : Prop :=
  (∀ a, Memory.read State.reset.ibuf a = none) ∧ State.reset.ilen = 0 ∧
  (∀ j, Memory.read State.reset.obuf j = none) ∧ State.reset.olen = 0 ∧ State.reset.err = 0 ∧
  exec .splitH State.reset = .next State.reset ∧ exec .splitL State.reset = .next State.reset

/-- R120, R124: a reset completes in every state and puts every piece of the unit's state to its reset
value; it does not change the parameters. -/
def Obligations.ResetStepEffect : Prop :=
  ∀ s : State, ∃ t, perform .reset s = .next t ∧
    (∀ a, Memory.read t.ibuf a = none) ∧ t.ilen = 0 ∧ (∀ j, Memory.read t.obuf j = none) ∧
    t.olen = 0 ∧ t.err = 0 ∧ t.params = s.params

/-! The whole machine. -/

/-- R124: no step, reset among them, changes the parameters. -/
def Obligations.ParametersNeverChange : Prop :=
  ∀ s t : State, step s = .next t → t.params = s.params

/-- The state after reset is well formed; its `CAP` is the model's choice (notes/assumptions/1.md). -/
def Obligations.ResetIsWellFormed : Prop := UnitInv State.reset

/-- Every step keeps the well-formed states: the buffers in canonical form within `CAP`, the output
cells that hold a value exactly those below `OLEN` (R122 and U3 as read by notes/assumptions/4.md,
DEDUCED), an empty output after a fault, and code 3 only under `REJECT`. -/
def Obligations.StepKeepsWellFormed : Prop :=
  ∀ s t : State, UnitInv s → step s = .next t → UnitInv t

/-- From R133: in a well-formed state an event completes in one step exactly when the rules allow it: it
names what exists, and reads no cell that holds no value. The exact line is the model's in these
points: an unwritten cell is refused (notes/assumptions/5.md, DESIGN CHOICE); a combine of odd length
over unwritten cells completes, against U2 and the precondition R125, and an illegal word reads no cell
(notes/assumptions/6.md, DEDUCED); a register or cell that does not exist stops
(notes/assumptions/7.md, DESIGN CHOICE); a value of 256 or more written to `CMD` stops
(notes/assumptions/8.md, DEDUCED). -/
def Obligations.AllowedEventsComplete : Prop :=
  ∀ (s : State) (e : Event), UnitInv s → (allowed e s ↔ ∃ t, perform e s = .next t)

/-- R49: what is pending is performed in the order the host gave it, each event complete before the
next begins. -/
def Obligations.PendingRunsInOrder : Prop :=
  ∀ (es rest : List Event) (s : State), s.pending = es ++ rest →
    Sys2Proof.core.run es.length s = performAll es { s with pending := rest }

/-- R114: a step of one unit is that unit's own step and leaves every other unit as it was. -/
def Obligations.UnitsAreIndependent : Prop :=
  ∀ (units : System) (k : Nat) (s t : State), units[k]? = some s → step s = .next t →
    ∃ after, System.stepAt units k = some (.next after) ∧ after[k]? = some t ∧
      ∀ j, j ≠ k → after[j]? = units[j]?

/-! The host's script. -/

/-- From R67: after `LOAD` the input buffer is exactly the listed sequence, and after `CLEAR` it is
empty; the output of the last command stays. -/
def Obligations.LoadSetsInput : Prop :=
  (∀ (s : State) (bs : List Byte), legalLength s.params.cap bs.length = true →
    ∃ t, (Statement.load bs).perform s = .next t ∧ readInput t = some bs ∧
      (∀ a, bs.length ≤ a → Memory.read t.ibuf a = Memory.read s.ibuf a) ∧
      t = { s with ibuf := t.ibuf, ilen := bs.length }) ∧
  (∀ s : State, Statement.clear.perform s = .next { s with ilen := 0 })

/-- From R67 and R131: `MOVE` makes the output the input where it fits, and stops where it does
not. -/
def Obligations.MoveCopiesOutput : Prop :=
  (∀ s : State, UnitInv s → legalLength s.params.cap s.olen = true →
    ∃ t bs, readOutput s = some bs ∧ Statement.move.perform s = .next t ∧ readInput t = some bs ∧
      t.obuf = s.obuf ∧ t.olen = s.olen ∧ t.err = s.err ∧ t.params = s.params) ∧
  (∀ s : State, legalLength s.params.cap s.olen = false → ∀ t, Statement.move.perform s ≠ .next t)

/-- From R67: `READOUT` returns `OLEN` and then the output in order, and changes nothing of the unit;
`CHECK` stops the script exactly when the last command failed. -/
def Obligations.ReadoutAndCheck : Prop :=
  (∀ s : State, UnitInv s →
    ∃ bs, readOutput s = some bs ∧ Statement.readout.perform s =
      .next { s with returned := s.returned ++ .length s.olen :: bs.map .byte }) ∧
  (∀ (s : State) (rest : List Statement),
    (s.err = 0 → runScript (.check :: rest) s =
      runScript rest { s with returned := s.returned ++ [.byte 0x00] }) ∧
    (s.err ≠ 0 → ∃ b : Byte, b ≠ 0 ∧ runScript (.check :: rest) s =
      .next { s with returned := s.returned ++ [.byte b] }))

/-- R90: the round trip, as a law of the functions and on the unit: `SPLIT.o`, `MOVE`, `COMBINE.o` ends
with the original input as the output and no fault, for both orders, both policies and every input
whose expanded form fits. -/
def Obligations.RoundTrip : Prop :=
  (∀ (p : OorPolicy) (o : NybbleOrder) (B : List Byte), combine p o (split o B) = .ok B) ∧
  ∀ (o : NybbleOrder) (s : State) (B : List Byte), readInput s = some B →
    legalLength s.params.cap (2 * s.ilen) = true →
    ∃ t, runScript [.command (splitOf o), .move, .command (combineOf o)] s = .next t ∧
      readOutput t = some B ∧ t.olen = s.ilen ∧ t.err = 0
end

