-- ==== Sys2Proof/Laws/Memory.lean ====
section
/-! SUPPORT. The laws of the cell operations: what a read after a write gives, that the canonical form
is kept, and what a sequence laid out from an index reads as. -/

namespace Sys2Proof.Machine

@[simp] theorem Memory.read_nil (a : Nat) : Memory.read [] a = none := rfl

@[simp] theorem Memory.read_cons (b : Nat) (x : Byte) (m : Memory) (a : Nat) :
    Memory.read ((b, x) :: m) a = if a = b then some x else Memory.read m a := rfl

/-- A cell below every listed index holds no value. -/
theorem Memory.read_eq_none_of_lt {m : Memory} {a : Nat} (h : ∀ c ∈ m, a < c.1) :
    Memory.read m a = none := by
  induction m with
  | nil => rfl
  | cons c m ih =>
    obtain ⟨b, x⟩ := c
    have hb : a < b := h _ List.mem_cons_self
    rw [Memory.read_cons, if_neg (by omega)]
    exact ih fun c hc => h c (List.mem_cons_of_mem _ hc)

/-- R40: reading the written cell gives the value, and every other cell reads as before. -/
theorem Memory.read_write (m : Memory) (a : Nat) (v : Byte) (i : Nat) :
    Memory.read (Memory.write m a v) i = if i = a then some v else Memory.read m i := by
  induction m with
  | nil => rfl
  | cons c m ih =>
    obtain ⟨b, x⟩ := c
    unfold Memory.write
    split
    · simp only [Memory.read_cons]
    · split
      · subst_vars
        simp only [Memory.read_cons]
        split <;> rfl
      · simp only [Memory.read_cons, ih]
        split <;> split <;> first | rfl | omega

/-- The cells after a write are the written one and cells that were there. -/
theorem Memory.mem_write {m : Memory} {a : Nat} {v : Byte} {c : Host.Cell}
    (h : c ∈ Memory.write m a v) : c = (a, v) ∨ c ∈ m := by
  induction m with
  | nil => exact .inl (by simpa [Memory.write] using h)
  | cons d m ih =>
    obtain ⟨b, x⟩ := d
    unfold Memory.write at h
    split at h
    · simpa using h
    · split at h
      · exact (List.mem_cons.mp h).imp id (List.mem_cons_of_mem _)
      · rcases List.mem_cons.mp h with h | h
        · exact .inr (by simp [h])
        · exact (ih h).imp id (List.mem_cons_of_mem _)

/-- A write keeps the canonical form. -/
theorem Memory.wf_write {m : Memory} (hm : Memory.wf m) (a : Nat) (v : Byte) :
    Memory.wf (Memory.write m a v) := by
  induction m with
  | nil => exact List.pairwise_singleton _ _
  | cons c m ih =>
    obtain ⟨b, x⟩ := c
    have hlt : ∀ d ∈ m, b < d.1 := (List.pairwise_cons.mp hm).1
    have htl := (List.pairwise_cons.mp hm).2
    unfold Memory.write
    split
    · rename_i h
      refine List.pairwise_cons.mpr ⟨fun d hd => ?_, hm⟩
      rcases List.mem_cons.mp hd with rfl | hd
      · exact h
      · exact h.trans (hlt d hd)
    · split
      · rename_i h
        exact List.pairwise_cons.mpr ⟨fun d hd => h ▸ hlt d hd, htl⟩
      · refine List.pairwise_cons.mpr ⟨fun d hd => ?_, ih htl⟩
        rcases Memory.mem_write hd with rfl | hd
        · show b < a
          omega
        · exact hlt d hd

/-- The indices of a sequence laid out from `base`. -/
theorem Memory.layFrom_fst (bs : List Byte) (base : Nat) :
    (Memory.layFrom base bs).map Prod.fst = List.range' base bs.length := by
  induction bs generalizing base with
  | nil => rfl
  | cons b bs ih => simp [Memory.layFrom, ih, List.range'_succ]

/-- The indices of a sequence laid out from 0. -/
theorem Memory.ofBytes_fst (bs : List Byte) :
    (Memory.ofBytes bs).map Prod.fst = List.range bs.length := by
  rw [Memory.ofBytes, Memory.layFrom_fst, List.range_eq_range']

/-- A memory whose indices are a range is in canonical form. -/
theorem Memory.wf_of_fst_eq_range {m : Memory} {n : Nat} (h : m.map Prod.fst = List.range n) :
    Memory.wf m := by
  have := List.pairwise_lt_range (n := n)
  rw [← h, List.pairwise_map] at this
  exact this

/-- A sequence laid out from 0 is in canonical form. -/
theorem Memory.wf_ofBytes (bs : List Byte) : Memory.wf (Memory.ofBytes bs) :=
  Memory.wf_of_fst_eq_range (Memory.ofBytes_fst bs)

/-- Element `k` of a laid out sequence is in the cell at `base + k`. -/
theorem Memory.read_layFrom (bs : List Byte) (base k : Nat) :
    Memory.read (Memory.layFrom base bs) (base + k) = bs[k]? := by
  induction bs generalizing base k with
  | nil => rfl
  | cons b bs ih =>
    rw [Memory.layFrom, Memory.read_cons]
    cases k with
    | zero => simp
    | succ k =>
      rw [if_neg (by omega), show base + (k + 1) = base + 1 + k by omega, ih]
      simp

/-- R43: element `k` of a sequence is the cell at index `k`, and no other cell holds a value. -/
theorem Memory.read_ofBytes (bs : List Byte) (k : Nat) : Memory.read (Memory.ofBytes bs) k = bs[k]? := by
  have h := Memory.read_layFrom bs 0 k
  rwa [Nat.zero_add] at h

/-- A memory lists a cell that holds a value. -/
theorem Memory.mem_of_read {m : Memory} {a : Nat} {v : Byte} (h : Memory.read m a = some v) :
    (a, v) ∈ m := by
  induction m with
  | nil => simp at h
  | cons c m ih =>
    obtain ⟨b, x⟩ := c
    rw [Memory.read_cons] at h
    split at h
    · simp_all
    · exact List.mem_cons_of_mem _ (ih h)

/-- A cell is listed exactly when it holds a value. -/
theorem Memory.read_isSome_iff (m : Memory) (a : Nat) :
    (Memory.read m a).isSome = true ↔ a ∈ m.map Prod.fst := by
  induction m with
  | nil => simp
  | cons c m ih =>
    obtain ⟨b, x⟩ := c
    rw [Memory.read_cons, List.map_cons, List.mem_cons, ← ih]
    by_cases h : a = b <;> simp [h]

/-- A range of cells read as a sequence: its length, and element `k` is the cell at `a + k`. -/
theorem Memory.readRange_eq_some_iff (m : Memory) (a n : Nat) (bs : List Byte) :
    Memory.readRange m a n = some bs ↔
      bs.length = n ∧ ∀ k < n, Memory.read m (a + k) = bs[k]? := by
  induction n generalizing a bs with
  | zero => cases bs <;> simp [Memory.readRange]
  | succ n ih =>
    rw [Memory.readRange]
    constructor
    · intro h
      split at h
      · rename_i b rest hb hrest
        cases h
        obtain ⟨hl, hk⟩ := (ih _ _).mp hrest
        refine ⟨by simp [hl], fun k hkn => ?_⟩
        cases k with
        | zero => simpa using hb
        | succ k =>
          rw [show a + (k + 1) = a + 1 + k by omega, hk k (by omega)]
          simp
      · cases h
    · rintro ⟨hl, hk⟩
      cases bs with
      | nil => simp at hl
      | cons b rest =>
        have h0 : Memory.read m a = some b := by simpa using hk 0 (by omega)
        have hr : Memory.readRange m (a + 1) n = some rest := by
          refine (ih _ _).mpr ⟨by simpa using hl, fun k hkn => ?_⟩
          have := hk (k + 1) (by omega)
          rw [show a + (k + 1) = a + 1 + k by omega] at this
          simpa using this
        simp [h0, hr]

/-- A range of cells can be read as a sequence exactly when every cell holds a value. -/
theorem Memory.readRange_isSome_iff (m : Memory) (a n : Nat) :
    (Memory.readRange m a n).isSome = true ↔ ∀ k < n, (Memory.read m (a + k)).isSome = true := by
  induction n generalizing a with
  | zero => simp [Memory.readRange]
  | succ n ih =>
    have hstep : (Memory.readRange m a (n + 1)).isSome = true ↔
        (Memory.read m a).isSome = true ∧ (Memory.readRange m (a + 1) n).isSome = true := by
      rw [Memory.readRange]
      cases Memory.read m a <;> cases Memory.readRange m (a + 1) n <;> simp
    rw [hstep, ih]
    constructor
    · rintro ⟨h0, hr⟩ k hk
      cases k with
      | zero => exact h0
      | succ k =>
        have := hr k (by omega)
        rwa [show a + 1 + k = a + (k + 1) by omega] at this
    · intro h
      refine ⟨h 0 (by omega), fun k hk => ?_⟩
      have := h (k + 1) (by omega)
      rwa [show a + (k + 1) = a + 1 + k by omega] at this

/-- A sequence laid out from 0 reads back whole. -/
theorem Memory.readRange_ofBytes (bs : List Byte) :
    Memory.readRange (Memory.ofBytes bs) 0 bs.length = some bs := by
  refine (Memory.readRange_eq_some_iff _ _ _ _).mpr ⟨rfl, fun k _ => ?_⟩
  rw [Nat.zero_add, Memory.read_ofBytes]

/-- `IN` is the sequence `bs` exactly when `ILEN` is its length and cell `k` holds element `k`. -/
theorem readInput_eq_some_iff (s : State) (bs : List Byte) :
    readInput s = some bs ↔ bs.length = s.ilen ∧ ∀ k < s.ilen, Memory.read s.ibuf k = bs[k]? := by
  simpa [readInput] using Memory.readRange_eq_some_iff s.ibuf 0 s.ilen bs

/-- `IN` can be read exactly when every one of its cells holds a value. -/
theorem readInput_isSome_iff (s : State) :
    (readInput s).isSome = true ↔ ∀ k < s.ilen, (Memory.read s.ibuf k).isSome = true := by
  simpa [readInput] using Memory.readRange_isSome_iff s.ibuf 0 s.ilen

/-- The buffers after reset are in canonical form. -/
theorem reset_memory_wf : Memory.wf State.reset.ibuf ∧ Memory.wf State.reset.obuf :=
  ⟨List.Pairwise.nil, List.Pairwise.nil⟩

end Sys2Proof.Machine
end

