-- ==== Sys2Proof/Laws/State.lean ====
section
/-! SUPPORT. One lemma per field per update of the state, true by definition, so that no later proof
unfolds a record update; and that the updates leave the pending events to `setPending`. -/

namespace Sys2Proof.Machine

variable (s : State)

@[simp] theorem succeedCommand_ibuf (result : List Byte) : (succeedCommand result s).ibuf = s.ibuf := rfl
@[simp] theorem succeedCommand_ilen (result : List Byte) : (succeedCommand result s).ilen = s.ilen := rfl
@[simp] theorem succeedCommand_obuf (result : List Byte) : (succeedCommand result s).obuf = Memory.ofBytes result := rfl
@[simp] theorem succeedCommand_olen (result : List Byte) : (succeedCommand result s).olen = result.length := rfl
@[simp] theorem succeedCommand_err (result : List Byte) : (succeedCommand result s).err = noFault := rfl
@[simp] theorem succeedCommand_params (result : List Byte) : (succeedCommand result s).params = s.params := rfl
@[simp] theorem succeedCommand_pending (result : List Byte) : (succeedCommand result s).pending = s.pending := rfl
@[simp] theorem succeedCommand_returned (result : List Byte) : (succeedCommand result s).returned = s.returned := rfl

@[simp] theorem failCommand_ibuf (e : CommandFault) : (failCommand e s).ibuf = s.ibuf := rfl
@[simp] theorem failCommand_ilen (e : CommandFault) : (failCommand e s).ilen = s.ilen := rfl
@[simp] theorem failCommand_obuf (e : CommandFault) : (failCommand e s).obuf = [] := rfl
@[simp] theorem failCommand_olen (e : CommandFault) : (failCommand e s).olen = 0 := rfl
@[simp] theorem failCommand_err (e : CommandFault) : (failCommand e s).err = e.code := rfl
@[simp] theorem failCommand_params (e : CommandFault) : (failCommand e s).params = s.params := rfl
@[simp] theorem failCommand_pending (e : CommandFault) : (failCommand e s).pending = s.pending := rfl
@[simp] theorem failCommand_returned (e : CommandFault) : (failCommand e s).returned = s.returned := rfl

@[simp] theorem setInputLength_ibuf (n : Nat) : (setInputLength n s).ibuf = s.ibuf := rfl
@[simp] theorem setInputLength_ilen (n : Nat) : (setInputLength n s).ilen = n := rfl
@[simp] theorem setInputLength_obuf (n : Nat) : (setInputLength n s).obuf = s.obuf := rfl
@[simp] theorem setInputLength_olen (n : Nat) : (setInputLength n s).olen = s.olen := rfl
@[simp] theorem setInputLength_err (n : Nat) : (setInputLength n s).err = s.err := rfl
@[simp] theorem setInputLength_params (n : Nat) : (setInputLength n s).params = s.params := rfl
@[simp] theorem setInputLength_pending (n : Nat) : (setInputLength n s).pending = s.pending := rfl
@[simp] theorem setInputLength_returned (n : Nat) : (setInputLength n s).returned = s.returned := rfl

@[simp] theorem writeInput_ibuf (i : Nat) (v : Byte) : (writeInput i v s).ibuf = Memory.write s.ibuf i v := rfl
@[simp] theorem writeInput_ilen (i : Nat) (v : Byte) : (writeInput i v s).ilen = s.ilen := rfl
@[simp] theorem writeInput_obuf (i : Nat) (v : Byte) : (writeInput i v s).obuf = s.obuf := rfl
@[simp] theorem writeInput_olen (i : Nat) (v : Byte) : (writeInput i v s).olen = s.olen := rfl
@[simp] theorem writeInput_err (i : Nat) (v : Byte) : (writeInput i v s).err = s.err := rfl
@[simp] theorem writeInput_params (i : Nat) (v : Byte) : (writeInput i v s).params = s.params := rfl
@[simp] theorem writeInput_pending (i : Nat) (v : Byte) : (writeInput i v s).pending = s.pending := rfl
@[simp] theorem writeInput_returned (i : Nat) (v : Byte) : (writeInput i v s).returned = s.returned := rfl

@[simp] theorem returnValue_ibuf (v : ReadValue) : (returnValue v s).ibuf = s.ibuf := rfl
@[simp] theorem returnValue_ilen (v : ReadValue) : (returnValue v s).ilen = s.ilen := rfl
@[simp] theorem returnValue_obuf (v : ReadValue) : (returnValue v s).obuf = s.obuf := rfl
@[simp] theorem returnValue_olen (v : ReadValue) : (returnValue v s).olen = s.olen := rfl
@[simp] theorem returnValue_err (v : ReadValue) : (returnValue v s).err = s.err := rfl
@[simp] theorem returnValue_params (v : ReadValue) : (returnValue v s).params = s.params := rfl
@[simp] theorem returnValue_pending (v : ReadValue) : (returnValue v s).pending = s.pending := rfl
@[simp] theorem returnValue_returned (v : ReadValue) : (returnValue v s).returned = s.returned ++ [v] := rfl

@[simp] theorem setPending_ibuf (es : List Event) : (setPending es s).ibuf = s.ibuf := rfl
@[simp] theorem setPending_ilen (es : List Event) : (setPending es s).ilen = s.ilen := rfl
@[simp] theorem setPending_obuf (es : List Event) : (setPending es s).obuf = s.obuf := rfl
@[simp] theorem setPending_olen (es : List Event) : (setPending es s).olen = s.olen := rfl
@[simp] theorem setPending_err (es : List Event) : (setPending es s).err = s.err := rfl
@[simp] theorem setPending_params (es : List Event) : (setPending es s).params = s.params := rfl
@[simp] theorem setPending_pending (es : List Event) : (setPending es s).pending = es := rfl
@[simp] theorem setPending_returned (es : List Event) : (setPending es s).returned = s.returned := rfl

@[simp] theorem resetUnit_ibuf : (resetUnit s).ibuf = [] := rfl
@[simp] theorem resetUnit_ilen : (resetUnit s).ilen = 0 := rfl
@[simp] theorem resetUnit_obuf : (resetUnit s).obuf = [] := rfl
@[simp] theorem resetUnit_olen : (resetUnit s).olen = 0 := rfl
@[simp] theorem resetUnit_err : (resetUnit s).err = 0 := rfl
@[simp] theorem resetUnit_params : (resetUnit s).params = s.params := rfl
@[simp] theorem resetUnit_pending : (resetUnit s).pending = s.pending := rfl
@[simp] theorem resetUnit_returned : (resetUnit s).returned = s.returned := rfl

theorem succeedCommand_setPending (result : List Byte) (p : List Event) :
    succeedCommand result (setPending p s) = setPending p (succeedCommand result s) := rfl

theorem failCommand_setPending (e : CommandFault) (p : List Event) :
    failCommand e (setPending p s) = setPending p (failCommand e s) := rfl

theorem setInputLength_setPending (n : Nat) (p : List Event) :
    setInputLength n (setPending p s) = setPending p (setInputLength n s) := rfl

theorem writeInput_setPending (i : Nat) (v : Byte) (p : List Event) :
    writeInput i v (setPending p s) = setPending p (writeInput i v s) := rfl

theorem returnValue_setPending (v : ReadValue) (p : List Event) :
    returnValue v (setPending p s) = setPending p (returnValue v s) := rfl

theorem resetUnit_setPending (p : List Event) :
    resetUnit (setPending p s) = setPending p (resetUnit s) := rfl

@[simp] theorem setPending_setPending (p q : List Event) :
    setPending p (setPending q s) = setPending p s := rfl

@[simp] theorem setPending_self : setPending s.pending s = s := rfl

end Sys2Proof.Machine
end

