-- ==== Sys2Proof/Laws/Commands.lean ====
section
/-! SUPPORT. The equations of the two buffer functions, and everything a command can do when it
answers a next state. -/

namespace Sys2Proof.Machine

@[simp] theorem split_nil (o : NybbleOrder) : split o [] = [] := rfl

theorem split_cons (o : NybbleOrder) (b : Byte) (bs : List Byte) :
    split o (b :: bs) = emit o (pair b) ++ split o bs := rfl

@[simp] theorem emit_length (o : NybbleOrder) (p : Byte × Byte) : (emit o p).length = 2 := by
  cases o <;> rfl

@[simp] theorem combinePairs_nil (p : OorPolicy) (o : NybbleOrder) : combinePairs p o [] = .ok [] := rfl

@[simp] theorem combinePairs_single (p : OorPolicy) (o : NybbleOrder) (a : Byte) :
    combinePairs p o [a] = .ok [] := rfl

theorem combinePairs_cons (p : OorPolicy) (o : NybbleOrder) (a b : Byte) (rest : List Byte) :
    combinePairs p o (a :: b :: rest) =
      match pack p (arrange o a b).1 (arrange o a b).2, combinePairs p o rest with
      | .error e, _ => .error e
      | .ok _, .error e => .error e
      | .ok x, .ok xs => .ok (x :: xs) := rfl

theorem combine_odd (p : OorPolicy) (o : NybbleOrder) {d : List Byte} (h : d.length % 2 = 1) :
    combine p o d = .error .invalidLength := if_pos h

theorem combine_even (p : OorPolicy) (o : NybbleOrder) {d : List Byte} (h : d.length % 2 ≠ 1) :
    combine p o d = combinePairs p o d := if_neg h

/-- The only fault of the combiner cell, and only under `REJECT` (R74). -/
theorem pack_error {p : OorPolicy} {h l : Byte} {e : CommandFault} (he : pack p h l = .error e) :
    p = .reject ∧ e = .invalidNybble := by
  cases p with
  | mask => cases he
  | reject =>
    by_cases hr : (inRange h && inRange l) = true
    · simp [pack, hr] at he
    · simp only [pack, if_neg hr, Except.error.injEq] at he
      exact ⟨rfl, he.symm⟩

/-- Once the length is known to be even, a combine fails only under `REJECT`, with InvalidNybble. -/
theorem combinePairs_error {p : OorPolicy} {o : NybbleOrder} {e : CommandFault} :
    ∀ {d : List Byte}, combinePairs p o d = .error e → p = .reject ∧ e = .invalidNybble
  | [], he => by cases he
  | [_], he => by cases he
  | a :: b :: rest, he => by
    rw [combinePairs_cons] at he
    split at he
    · cases he
      exact pack_error ‹_›
    · cases he
      exact combinePairs_error ‹_›
    · cases he

/-- A split of the input buffer: the whole input is read and the result is written. -/
theorem splitInput_next {o : NybbleOrder} {s t : State} (h : splitInput o s = .next t) :
    ∃ bs, readInput s = some bs ∧ t = succeedCommand (split o bs) s := by
  unfold splitInput at h
  split at h
  · cases h
    exact ⟨_, ‹_›, rfl⟩
  · cases h

/-- A combine of the input buffer: it fails on an odd length, or reads the whole input and then fails
with InvalidNybble or writes the result. -/
theorem combineInput_next {o : NybbleOrder} {s t : State} (h : combineInput o s = .next t) :
    (s.ilen % 2 = 1 ∧ t = failCommand .invalidLength s) ∨
      (s.ilen % 2 ≠ 1 ∧ ∃ d, readInput s = some d ∧
        ((∃ result, combinePairs s.params.oorPolicy o d = .ok result ∧ t = succeedCommand result s) ∨
          (s.params.oorPolicy = .reject ∧ combinePairs s.params.oorPolicy o d = .error .invalidNybble ∧
            t = failCommand .invalidNybble s))) := by
  unfold combineInput at h
  split at h
  · cases h
    exact .inl ⟨‹_›, rfl⟩
  · rename_i hodd
    split at h
    · cases h
    · rename_i d hd
      have hlen : d.length % 2 ≠ 1 := by rw [((readInput_eq_some_iff s d).mp hd).1]; exact hodd
      rw [combine_even _ _ hlen] at h
      refine .inr ⟨hodd, d, hd, ?_⟩
      split at h
      · cases h
        exact .inl ⟨_, ‹_›, rfl⟩
      · rename_i e he
        cases h
        obtain ⟨hp, rfl⟩ := combinePairs_error he
        exact .inr ⟨hp, he, rfl⟩

/-- Everything a command can do when it answers a next state. -/
theorem exec_next {i : Instr} {s t : State} (h : exec i s = .next t) :
    (∃ o bs, i = splitOf o ∧ readInput s = some bs ∧ t = succeedCommand (split o bs) s) ∨
      (∃ o, i = combineOf o ∧ s.ilen % 2 = 1 ∧ t = failCommand .invalidLength s) ∨
      (∃ o d, i = combineOf o ∧ s.ilen % 2 ≠ 1 ∧ readInput s = some d ∧
        ((∃ result, combinePairs s.params.oorPolicy o d = .ok result ∧ t = succeedCommand result s) ∨
          (s.params.oorPolicy = .reject ∧ combinePairs s.params.oorPolicy o d = .error .invalidNybble ∧
            t = failCommand .invalidNybble s))) := by
  have hs : ∀ o, i = splitOf o → splitInput o s = .next t →
      ∃ o bs, i = splitOf o ∧ readInput s = some bs ∧ t = succeedCommand (split o bs) s :=
    fun o hi hn => let ⟨bs, hb, ht⟩ := splitInput_next hn; ⟨o, bs, hi, hb, ht⟩
  have hc : ∀ o, i = combineOf o → combineInput o s = .next t →
      (∃ o, i = combineOf o ∧ s.ilen % 2 = 1 ∧ t = failCommand .invalidLength s) ∨
      (∃ o d, i = combineOf o ∧ s.ilen % 2 ≠ 1 ∧ readInput s = some d ∧
        ((∃ result, combinePairs s.params.oorPolicy o d = .ok result ∧ t = succeedCommand result s) ∨
          (s.params.oorPolicy = .reject ∧ combinePairs s.params.oorPolicy o d = .error .invalidNybble ∧
            t = failCommand .invalidNybble s))) := fun o hi hn => by
    rcases combineInput_next hn with ⟨ho, ht⟩ | ⟨ho, d, hd, hr⟩
    · exact .inl ⟨o, hi, ho, ht⟩
    · exact .inr ⟨o, d, hi, ho, hd, hr⟩
  cases i with
  | splitH => exact .inl (hs .highFirst rfl h)
  | splitL => exact .inl (hs .lowFirst rfl h)
  | combineH => exact .inr (hc .highFirst rfl h)
  | combineL => exact .inr (hc .lowFirst rfl h)

end Sys2Proof.Machine
end

