-- ==== Sys2Proof/Laws/PerInstr.lean ====
section
/-! SUPPORT. Statements about every command, one lemma per constructor. -/

namespace Sys2Proof.Laws.WordFields

/-- R53 to R56: the word of a command has its operation code, zero reserved bits and its order bit in
the fields of format C. -/
def Statement (i : Instr) : Prop :=
  i.wellFormed = true ∧ opcField (encode i) = i.opc ∧ rsvField (encode i) = 0 ∧
    orderOfBit (ordField (encode i)) = i.order

theorem splitH : Statement .splitH := by unfold Statement; decide
theorem splitL : Statement .splitL := by unfold Statement; decide
theorem combineH : Statement .combineH := by unfold Statement; decide
theorem combineL : Statement .combineL := by unfold Statement; decide

end Sys2Proof.Laws.WordFields
end

