-- ==== Sys2Proof/Laws/Run.lean ====
section
/-! SUPPORT. One more step of a run, by what the step answers. -/

namespace Sys2Proof.Machine

theorem run_of_next {s t : State} (k : Nat) (h : step s = .next t) :
    Sys2Proof.core.run (k + 1) s = Sys2Proof.core.run k t := by
  have hs : Sys2Proof.core.step s = .next t := h
  simp [Host.Core.run, hs]

theorem run_of_fault {s : State} {f : Fault} (k : Nat) (h : step s = .fault f) :
    Sys2Proof.core.run (k + 1) s = .fault f := by
  have hs : Sys2Proof.core.step s = .fault f := h
  simp [Host.Core.run, hs]

theorem run_of_refused {s : State} {r : Refusal} (k : Nat) (h : step s = .refused r) :
    Sys2Proof.core.run (k + 1) s = .refused r := by
  have hs : Sys2Proof.core.step s = .refused r := h
  simp [Host.Core.run, hs]

end Sys2Proof.Machine
end

