-- ==== Sys2Proof/Laws/Transactions.lean ====
section
/-! SUPPORT. Everything a step's work can do when it answers a next state, and that no transaction
looks at or changes what is pending. -/

namespace Sys2Proof.Machine

/-- `Execute(w)` when it answers a next state: the command of the word, or IllegalCommand. -/
theorem execute_next {w : Byte} {s t : State} (h : execute w s = .next t) :
    (∃ i, decode w = .ok i ∧ exec i s = .next t) ∨
      (∃ r, decode w = .error r ∧ t = failCommand .illegalCommand s) := by
  unfold execute at h
  split at h
  · exact .inl ⟨_, ‹_›, h⟩
  · cases h
    exact .inr ⟨_, ‹_›, rfl⟩

/-- Everything an event can do when it answers a next state. -/
theorem perform_next {e : Event} {s t : State} (h : perform e s = .next t) :
    t = s ∨ (∃ v, t = returnValue v s) ∨
      (∃ n, e = .regWrite 2 n ∧ legalLength s.params.cap n = true ∧ t = setInputLength n s) ∨
      (∃ i v, e = .bufWrite .ibuf i v ∧ inputCellExists s.params.cap i = true ∧ t = writeInput i v s) ∨
      (e = .reset ∧ t = resetUnit s) ∨
      (∃ v, e = .regWrite 0 v ∧ v < 256 ∧ execute (BitVec.ofNat 8 v) s = .next t) := by
  cases e with
  | regRead r =>
    simp only [perform, regRead] at h
    split at h <;> cases h
    exact .inr (.inl ⟨_, rfl⟩)
  | regWrite r v =>
    simp only [perform, regWrite] at h
    split at h
    · unfold writeCommand at h
      split at h
      · exact .inr (.inr (.inr (.inr (.inr ⟨v, rfl, ‹_›, h⟩))))
      · cases h
    · cases h; exact .inl rfl
    · unfold writeLength at h
      split at h <;> cases h
      exact .inr (.inr (.inl ⟨v, rfl, ‹_›, rfl⟩))
    · cases h; exact .inl rfl
    · cases h
  | bufRead space i =>
    cases space with
    | ibuf =>
      simp only [perform, bufRead, readInputCell] at h
      split at h
      · split at h <;> cases h
        exact .inr (.inl ⟨_, rfl⟩)
      · cases h
    | obuf =>
      simp only [perform, bufRead, readOutputCell] at h
      split at h
      · split at h
        · split at h <;> cases h
          exact .inr (.inl ⟨_, rfl⟩)
        · cases h
      · cases h
  | bufWrite space i v =>
    cases space with
    | ibuf =>
      simp only [perform, bufWrite] at h
      split at h <;> cases h
      exact .inr (.inr (.inr (.inl ⟨i, v, rfl, ‹_›, rfl⟩)))
    | obuf =>
      simp only [perform, bufWrite] at h
      split at h <;> cases h
      exact .inl rfl
  | reset =>
    cases h
    exact .inr (.inr (.inr (.inr (.inl ⟨rfl, rfl⟩))))

/-- A change of the next state that leaves a stop as it is. -/
def mapNext (f : State → State) : Outcome → Outcome
  | .next t => .next (f t)
  | .fault r => .fault r
  | .refused r => .refused r

/-- A command does not look at what is pending and leaves it. -/
theorem exec_setPending (i : Instr) (s : State) (p : List Event) :
    exec i (setPending p s) = mapNext (setPending p) (exec i s) := by
  have hin : readInput (setPending p s) = readInput s := rfl
  have hsplit : ∀ o, splitInput o (setPending p s) = mapNext (setPending p) (splitInput o s) := by
    intro o
    unfold splitInput
    rw [hin]
    cases readInput s <;> rfl
  have hcombine : ∀ o, combineInput o (setPending p s) = mapNext (setPending p) (combineInput o s) := by
    intro o
    unfold combineInput
    rw [hin, setPending_ilen, setPending_params]
    by_cases hodd : s.ilen % 2 = 1
    · rw [if_pos hodd, if_pos hodd]; rfl
    · rw [if_neg hodd, if_neg hodd]
      cases readInput s with
      | none => rfl
      | some d =>
        dsimp only
        cases combine s.params.oorPolicy o d <;> rfl
  cases i with
  | splitH => exact hsplit _
  | splitL => exact hsplit _
  | combineH => exact hcombine _
  | combineL => exact hcombine _

/-- No event looks at what is pending, and every event leaves it. -/
theorem perform_setPending (e : Event) (s : State) (p : List Event) :
    perform e (setPending p s) = mapNext (setPending p) (perform e s) := by
  cases e with
  | regRead r =>
    simp only [perform, regRead]
    have : readRegister (setPending p s) r = readRegister s r := by unfold readRegister; rfl
    rw [this]
    cases readRegister s r <;> rfl
  | regWrite r v =>
    simp only [perform, regWrite]
    split
    · unfold writeCommand
      split
      · unfold execute
        split
        · exact exec_setPending _ _ _
        · rfl
      · rfl
    · rfl
    · unfold writeLength
      rw [setPending_params]
      split <;> rfl
    · rfl
    · rfl
  | bufRead space i =>
    cases space with
    | ibuf =>
      simp only [perform, bufRead, readInputCell]
      rw [setPending_params, setPending_ibuf]
      by_cases hc : inputCellExists s.params.cap i = true
      · rw [if_pos hc, if_pos hc]
        cases Memory.read s.ibuf i <;> rfl
      · rw [if_neg hc, if_neg hc]; rfl
    | obuf =>
      simp only [perform, bufRead, readOutputCell]
      rw [setPending_params, setPending_obuf, setPending_olen]
      by_cases hc : outputCellExists s.params.cap i = true
      · rw [if_pos hc, if_pos hc]
        by_cases hv : i < s.olen
        · rw [if_pos hv, if_pos hv]
          cases Memory.read s.obuf i <;> rfl
        · rw [if_neg hv, if_neg hv]; rfl
      · rw [if_neg hc, if_neg hc]; rfl
  | bufWrite space i v =>
    cases space with
    | ibuf =>
      simp only [perform, bufWrite]
      rw [setPending_params]
      by_cases hc : inputCellExists s.params.cap i = true
      · rw [if_pos hc, if_pos hc]; rfl
      · rw [if_neg hc, if_neg hc]; rfl
    | obuf =>
      simp only [perform, bufWrite]
      rw [setPending_params]
      by_cases hc : outputCellExists s.params.cap i = true
      · rw [if_pos hc, if_pos hc]; rfl
      · rw [if_neg hc, if_neg hc]; rfl
  | reset => rfl

/-- A step takes up the oldest event. -/
theorem step_cons {s : State} {e : Event} {es : List Event} (h : s.pending = e :: es) :
    step s = perform e (setPending es s) := by
  unfold step performPending
  rw [h]

/-- A step with nothing pending changes nothing. -/
theorem step_idle {s : State} (h : s.pending = []) : step s = .next s := by
  unfold step performPending
  rw [h]

/-- Everything a step can do when it answers a next state. -/
theorem step_next {s t : State} (h : step s = .next t) :
    (s.pending = [] ∧ t = s) ∨
      ∃ e es, s.pending = e :: es ∧ perform e (setPending es s) = .next t := by
  cases hp : s.pending with
  | nil =>
    rw [step_idle hp] at h
    cases h
    exact .inl ⟨rfl, rfl⟩
  | cons e es =>
    rw [step_cons hp] at h
    exact .inr ⟨e, es, rfl, h⟩

/-- Events performed one after the other, in two parts. -/
theorem performAll_append (es fs : List Event) (s : State) :
    performAll (es ++ fs) s =
      match performAll es s with
      | .next t => performAll fs t
      | .fault f => .fault f
      | .refused r => .refused r := by
  induction es generalizing s with
  | nil => rfl
  | cons e es ih =>
    rw [List.cons_append, performAll, performAll]
    cases perform e s with
    | next t => exact ih t
    | fault f => rfl
    | refused r => rfl

end Sys2Proof.Machine
end

