-- ==== Sys2Proof/Tests/Slice0.lean ====
section
/-! SUPPORT. The model's own tests. Expected values are those of spec/95_test_vectors.md and of the
encodings of spec/30_encoding.md, written out here. The witnesses at the end meet the hypotheses of
the statements of Sys2Proof/Certificates/Slice0/Obligations.lean, clause by clause. -/

namespace Sys2Proof.Tests

open Sys2Proof Sys2Proof.Machine

/-! Helpers: a loaded unit, and what a step answers. -/

/-- A unit with the given parameters and input, otherwise as after reset. -/
def unitWith (cap : Capacity) (p : OorPolicy) (bs : List Byte) : State :=
  { State.reset with ibuf := Memory.ofBytes bs, ilen := bs.length, params := ⟨cap, p⟩ }

/-- A unit with `OOR_POLICY` = MASK and the given input. -/
def loaded (bs : List Byte) : State := unitWith .unbounded .mask bs

/-- The next state, where there is one. -/
def nextOf : Outcome → Option State
  | .next t => some t
  | .fault _ => none
  | .refused _ => none

/-- The refusal, where the step is refused. -/
def refusalOf : Outcome → Option Refusal
  | .refused r => some r
  | .next _ => none
  | .fault _ => none

/-- The fault, where the step faults. -/
def faultOf : Outcome → Option Fault
  | .fault f => some f
  | .next _ => none
  | .refused _ => none

/-- `OUT`, `OLEN` and `ERR` after a step. -/
def outOf (o : Outcome) : Option (Option (List Byte) × Nat × BitVec 2) :=
  (nextOf o).map fun t => (readOutput t, t.olen, t.err)

/-- What the last read of a step returned. -/
def returnedOf (o : Outcome) : Option (List ReadValue) := (nextOf o).map fun t => t.returned

/-- 95_test_vectors 2.9 with `CAP` = 6: `IN = [0xAB, 0xCD]` after `SPLIT.H`. -/
def sample : State :=
  { unitWith (.bounded 6) .mask [0xAB, 0xCD] with
    obuf := Memory.ofBytes [0x0A, 0x0B, 0x0C, 0x0D], olen := 4 }

/-! WellFormed: one ill-formed term for each check. -/

theorem test_wf_commands : ∀ i : Instr, i.wellFormed = true := by intro i; cases i <;> rfl
theorem test_wf_capacity_zero_refused : Params.wellFormed ⟨.bounded 0, .mask⟩ = false := by decide
theorem test_wf_capacity_one : Params.wellFormed ⟨.bounded 1, .reject⟩ = true := by decide
theorem test_wf_register_four_refused :
    Event.wellFormed ⟨.bounded 6, .mask⟩ (.regRead 4) = false ∧
    Event.wellFormed ⟨.bounded 6, .mask⟩ (.regWrite 4 0) = false := by decide
theorem test_wf_command_not_a_byte_refused :
    Event.wellFormed ⟨.bounded 6, .mask⟩ (.regWrite 0 256) = false := by decide
theorem test_wf_length_above_cap_refused :
    Event.wellFormed ⟨.bounded 6, .mask⟩ (.regWrite 2 7) = false ∧
    Event.wellFormed ⟨.bounded 6, .mask⟩ (.regWrite 2 6) = true := by decide
theorem test_wf_cells_refused :
    Event.wellFormed ⟨.bounded 6, .mask⟩ (.bufRead .ibuf 6) = false ∧
    Event.wellFormed ⟨.bounded 6, .mask⟩ (.bufWrite .ibuf 6 0) = false ∧
    Event.wellFormed ⟨.bounded 6, .mask⟩ (.bufRead .obuf 12) = false ∧
    Event.wellFormed ⟨.bounded 6, .mask⟩ (.bufWrite .obuf 12 0) = false ∧
    Event.wellFormed ⟨.bounded 6, .mask⟩ (.bufRead .obuf 11) = true := by decide

/-! Decoding: the four words bit by bit (R58), and illegal words of 95_test_vectors 2.8. -/

theorem test_decode_splitH : decode 0b0001_000_0#8 = .ok .splitH := by decide
theorem test_decode_splitL : decode 0b0001_000_1#8 = .ok .splitL := by decide
theorem test_decode_combineH : decode 0b0010_000_0#8 = .ok .combineH := by decide
theorem test_decode_combineL : decode 0b0010_000_1#8 = .ok .combineL := by decide
theorem test_encode_words :
    encode .splitH = 0x10 ∧ encode .splitL = 0x11 ∧ encode .combineH = 0x20 ∧ encode .combineL = 0x21 := by
  decide
theorem test_decode_reserved_bits :
    decode 0x12 = .error .reservedBitsSet ∧ decode 0x18 = .error .reservedBitsSet ∧
    decode 0x22 = .error .reservedBitsSet ∧ decode 0xFF = .error .reservedBitsSet := by decide
theorem test_decode_unknown_operation :
    decode 0x00 = .error .unknownOperation ∧ decode 0x01 = .error .unknownOperation ∧
    decode 0x30 = .error .unknownOperation ∧ decode 0xF0 = .error .unknownOperation := by decide
theorem test_decodeTableWord :
    decodeTableWord 8 0x10 = some .splitH ∧ decodeTableWord 8 0x21 = some .combineL ∧
    decodeTableWord 8 0x12 = none := by decide

/-! The cells: 95_test_vectors 2.1 to 2.3. -/

theorem test_splitter_cell : pair 0xA5 = (0x0A, 0x05) ∧ hi 0x80 = 0x08 ∧ lo 0xF0 = 0x00 ∧ swap 0x57 = 0x75 := by
  decide
theorem test_pack_mask :
    pack .mask 0x1A 0x25 = .ok 0xA5 ∧ pack .mask 0x01 0x25 = .ok 0x15 ∧ pack .mask 0x0F 0x80 = .ok 0xF0 := by
  decide
theorem test_pack_reject :
    pack .reject 0x10 0x00 = .error .invalidNybble ∧ pack .reject 0x00 0x10 = .error .invalidNybble ∧
    pack .reject 0x0F 0x0F = .ok 0xFF := by decide

/-! The commands: the source's four scenarios and the corner cases. -/

theorem test_splitH : outOf (exec .splitH (loaded [0x01, 0x23, 0x45])) =
    some (some [0x00, 0x01, 0x02, 0x03, 0x04, 0x05], 6, 0) := by decide
theorem test_splitL : outOf (exec .splitL (loaded [0x57, 0x61, 0x76])) =
    some (some [0x07, 0x05, 0x01, 0x06, 0x06, 0x07], 6, 0) := by decide
theorem test_combineH : outOf (exec .combineH (loaded [0x00, 0x01, 0x02, 0x03, 0x04, 0x05])) =
    some (some [0x01, 0x23, 0x45], 3, 0) := by decide
theorem test_combineL : outOf (exec .combineL (loaded [0x07, 0x05, 0x01, 0x06, 0x06, 0x07])) =
    some (some [0x57, 0x61, 0x76], 3, 0) := by decide
theorem test_combine_odd : outOf (exec .combineH (loaded [0x0A, 0x05, 0x01])) = some (some [], 0, 1) := by decide
theorem test_combine_mask : outOf (exec .combineL (loaded [0x0A, 0x05, 0x1A, 0x25])) =
    some (some [0x5A, 0x5A], 2, 0) := by decide
theorem test_combine_reject : outOf (exec .combineH (unitWith .unbounded .reject [0x0A, 0x05, 0x1A, 0x25])) =
    some (some [], 0, 3) := by decide
theorem test_priority_reject_odd : outOf (exec .combineL (unitWith .unbounded .reject [0x1A])) =
    some (some [], 0, 1) := by decide
theorem test_illegal_word : outOf (execute 0x12 sample) = some (some [], 0, 2) := by decide
theorem test_split_not_loaded :
    refusalOf (exec .splitH { loaded [0x01] with ilen := 2 }) = some .inputNotLoaded := by decide

/-! The transactions: 95_test_vectors 2.9. -/

theorem test_read_registers :
    returnedOf (perform (.regRead 0) sample) = some [.byte 0x00] ∧
    returnedOf (perform (.regRead 1) { sample with err := 2 }) = some [.byte 0x02] ∧
    returnedOf (perform (.regRead 2) sample) = some [.length 2] ∧
    returnedOf (perform (.regRead 3) sample) = some [.length 4] := by decide
theorem test_read_cells :
    returnedOf (perform (.bufRead .obuf 3) sample) = some [.byte 0x0D] ∧
    returnedOf (perform (.bufRead .ibuf 1) sample) = some [.byte 0xCD] ∧
    refusalOf (perform (.bufRead .obuf 4) sample) = some .outputNotVisible ∧
    refusalOf (perform (.bufRead .ibuf 2) sample) = some .inputCellUnwritten := by decide
theorem test_ignored_writes :
    nextOf (perform (.regWrite 1 0xFF) sample) = some sample ∧
    nextOf (perform (.regWrite 3 9) sample) = some sample ∧
    nextOf (perform (.bufWrite .obuf 0 0x77) sample) = some sample := by decide
theorem test_write_length :
    (nextOf (perform (.regWrite 2 1) sample)).bind readInput = some [0xAB] ∧
    refusalOf (perform (.regWrite 2 7) sample) = some .lengthAboveCapacity := by decide
theorem test_write_cell :
    (nextOf (perform (.bufWrite .ibuf 0 0x12) sample)).bind readInput = some [0x12, 0xCD] ∧
    (nextOf (perform (.bufWrite .ibuf 0 0x12) sample)).bind readOutput = some [0x0A, 0x0B, 0x0C, 0x0D] := by
  decide
theorem test_not_there :
    faultOf (perform (.regRead 4) sample) = some .noSuchRegister ∧
    faultOf (perform (.bufRead .ibuf 6) sample) = some .noSuchInputCell ∧
    faultOf (perform (.bufRead .obuf 12) sample) = some .noSuchOutputCell ∧
    refusalOf (perform (.regWrite 0 256) sample) = some .commandNotAByte := by decide

/-! Steps. -/

theorem test_placed_word_runs :
    nextOf (step (State.reset.withFetchWord 8 0x10)) = some State.reset ∧
    nextOf (step (State.reset.withFetchWord 8 0x21)) = some State.reset := by decide
theorem test_placed_illegal_word : outOf (step (State.reset.withFetchWord 8 0x00)) = some (some [], 0, 2) := by
  decide
theorem test_reset_step : nextOf (perform .reset sample) =
    some { State.reset with params := ⟨.bounded 6, .mask⟩ } := by decide

/-- 95_test_vectors P4: the mismatch is no fault and gives every Byte with its halves exchanged. -/
theorem test_order_mismatch :
    outOf (runScript [.command .splitH, .move, .command .combineL] (loaded [0x57, 0x61, 0x76])) =
      some (some [0x75, 0x16, 0x67], 3, 0) := by decide

/-! Witnesses for the hypotheses of the statements. -/

theorem sample_inv : UnitInv sample where
  params_wf := by decide
  ibuf_wf := by decide
  ibuf_cells := by decide
  ilen_legal := by decide
  obuf_cells := by decide
  olen_legal := by decide
  fault_empties := by decide
  code_three := by decide

/-- `CAP` = 2: the output of a full buffer does not fit into the input. -/
def fullUnit : State :=
  { unitWith (.bounded 2) .mask [0xDE, 0xAD] with
    obuf := Memory.ofBytes [0x0D, 0x0E, 0x0A, 0x0D], olen := 4 }

/-- A unit whose last command failed. -/
def failedUnit : State := { loaded [0x00] with err := 1 }

/-- A unit with the event a `CMD` write of `w` next, and a reset after it. -/
def withCommand (w : Byte) : State := { sample with pending := [.regWrite 0 w.toNat, .reset] }

theorem witness_DecodeInvertsEncode : Instr.combineL.wellFormed = true ∧ decode 0x21 = .ok .combineL := by decide
theorem witness_DecodeFollowsFields :
    ((0x12 : Byte).toNat / 2 % 8 ≠ 0) ∧ ((0x11 : Byte).toNat / 2 % 8 = 0 ∧ (0x11 : Byte).toNat / 16 = 1) ∧
    ((0x20 : Byte).toNat / 2 % 8 = 0 ∧ (0x20 : Byte).toNat / 16 = 2) ∧
    ((0x30 : Byte).toNat / 16 ≠ 1 ∧ (0x30 : Byte).toNat / 16 ≠ 2) := by decide
theorem witness_IllegalWordFails : (0x00 : Byte) ∉ ([0x10, 0x11, 0x20, 0x21] : List Byte) := by decide
theorem witness_StepRunsDecodedCommand :
    ((withCommand 0x10).pending = .regWrite 0 (0x10 : Byte).toNat :: [.reset] ∧ decode 0x10 = .ok .splitH) ∧
    ((withCommand 0x12).pending = .regWrite 0 (0x12 : Byte).toNat :: [.reset] ∧
      decode 0x12 = .error .reservedBitsSet) := by decide
theorem witness_StepTakesOldestEvent :
    State.reset.pending = [] ∧ (withCommand 0x10).pending = .regWrite 0 0x10 :: [.reset] := by decide
theorem witness_PackInRange : (0x0F : Byte).toNat ≤ 15 ∧ (0x00 : Byte).toNat ≤ 15 := by decide
theorem witness_PackOutOfRange :
    (15 < (0x10 : Byte).toNat ∨ 15 < (0x00 : Byte).toNat) ∧ (15 < (0x00 : Byte).toNat ∨ 15 < (0x10 : Byte).toNat) ∧
    ((0x0F : Byte).toNat ≤ 15 ∧ (0x0F : Byte).toNat ≤ 15) := by decide
theorem witness_CellsAreInverse :
    ((0x0A : Byte).toNat ≤ 15 ∧ (0x05 : Byte).toNat ≤ 15 ∧ pack .reject 0x0A 0x05 = .ok 0xA5) ∧
    pack .mask 0x1A 0x25 = .ok 0xA5 := by decide
theorem witness_SplitElements : ([0x57, 0x61] : List Byte)[1]? = some 0x61 := by decide
theorem witness_SplitOutputInRange : (0x0F : Byte) ∈ split .lowFirst [0xF0] := by decide
theorem witness_CombineOutcome :
    ([0x1A] : List Byte).length % 2 = 1 ∧
    (([0x0A, 0x10] : List Byte).length % 2 = 0 ∧ ∃ v ∈ ([0x0A, 0x10] : List Byte), 15 < v.toNat) ∧
    (([0x0F, 0x05] : List Byte).length % 2 = 0 ∧ (∀ v ∈ ([0x0F, 0x05] : List Byte), v.toNat ≤ 15) ∧
      ([0x0F, 0x05] : List Byte)[2 * 0]? = some 0x0F ∧ ([0x0F, 0x05] : List Byte)[2 * 0 + 1]? = some 0x05) := by
  decide
theorem witness_CombineLength :
    ([0x00] : List Byte).length % 2 = 1 ∧ combine .reject .lowFirst [0x07, 0x05] = .ok [0x57] := by decide
theorem witness_EmptyBuffer : State.reset.ilen = 0 := by decide
theorem witness_SplitAfterCombine :
    (([0x0A, 0x05] : List Byte).length % 2 = 0 ∧ ∀ v ∈ ([0x0A, 0x05] : List Byte), v.toNat ≤ 15) ∧
    ([0x1A, 0x25] : List Byte).length % 2 = 0 := by decide
theorem witness_ChunksJoin :
    (([0x0A, 0x05] : List Byte).length % 2 = 0 ∧ ([0x01, 0x02] : List Byte).length % 2 = 0 ∧
      combine .mask .highFirst [0x0A, 0x05] = .ok [0xA5] ∧ combine .mask .highFirst [0x01, 0x02] = .ok [0x12]) ∧
    combine .reject .highFirst [0x1A, 0x25] = .error .invalidNybble := by decide
theorem witness_OneToOne :
    split .highFirst [0xA5] = split .highFirst [0xA5] ∧
    ((∀ v ∈ ([0x0A, 0x05] : List Byte), v.toNat ≤ 15) ∧ combine .reject .highFirst [0x0A, 0x05] = .ok [0xA5]) := by
  decide
theorem witness_OrdersCompared : combine .reject .highFirst [0x0A, 0x05] = .ok [0xA5] := by decide
theorem witness_split_results :
    inputLoaded sample ∧ inputLoaded State.reset ∧ (1 < sample.ilen ∧ Memory.read sample.ibuf 1 = some 0xCD) ∧
    2 * sample.ilen ≤ 4 := by unfold inputLoaded; decide
theorem witness_combine_succeeds :
    sample.ilen % 2 = 0 ∧ inputLoaded sample ∧ sample.params.oorPolicy = .mask ∧
    (0 < sample.ilen / 2 ∧ Memory.read sample.ibuf (2 * 0) = some 0xAB ∧
      Memory.read sample.ibuf (2 * 0 + 1) = some 0xCD) := by unfold inputLoaded; decide
theorem witness_combine_in_range :
    inputLoaded (unitWith (.bounded 2) .reject [0x0F, 0x00]) ∧
    inputInRange (unitWith (.bounded 2) .reject [0x0F, 0x00]) := by
  refine ⟨by unfold inputLoaded; decide, ?_⟩
  unfold inputInRange
  decide
theorem witness_combine_odd : ({ State.reset with ilen := 1 } : State).ilen % 2 = 1 := by decide
theorem witness_combine_reject :
    let s := unitWith (.bounded 2) .reject [0x0A, 0x10]
    s.ilen % 2 = 0 ∧ inputLoaded s ∧ s.params.oorPolicy = .reject ∧ ¬ inputInRange s := by
  refine ⟨by decide, by unfold inputLoaded; decide, by decide, fun h => ?_⟩
  have h1 := h 1 (by decide) 0x10 (by decide)
  revert h1
  decide

/-- `FaultCodeCauses`, `CommandKeepsInput`: a command completes with each code. -/
theorem witness_command_next :
    outOf (execute 0x10 sample) = some (some [0x0A, 0x0B, 0x0C, 0x0D], 4, 0) ∧
    outOf (execute 0x20 failedUnit) = some (some [], 0, 1) ∧
    outOf (execute 0x30 sample) = some (some [], 0, 2) ∧
    outOf (execute 0x21 (unitWith .unbounded .reject [0x0A, 0x10])) = some (some [], 0, 3) := by decide

theorem witness_FailureLeavesNoResult :
    ∃ t, execute 0x30 sample = .next t ∧ t.err ≠ 0 := ⟨_, rfl, by decide⟩

/-- Two units that differ outside the input, in the old result and in the capacity. -/
theorem witness_CommandIsStateless :
    let s := sample
    let s' := { unitWith .unbounded .mask [0xAB, 0xCD, 0x99] with ilen := 2, err := 1 }
    s.ilen = s'.ilen ∧ (∀ k < s.ilen, Memory.read s.ibuf k = Memory.read s'.ibuf k) ∧
    s.params.oorPolicy = s'.params.oorPolicy ∧ s.olen ≠ s'.olen := by decide

theorem witness_CellsWithoutValueAreRefused :
    let s := { sample with ilen := 4 }
    ¬ inputLoaded s ∧ s.ilen % 2 = 0 ∧
    (cellExists s.params.cap .ibuf 5 = true ∧ Memory.read s.ibuf 5 = none) ∧
    (cellExists s.params.cap .obuf 4 = true ∧ s.olen ≤ 4) := by
  refine ⟨fun h => ?_, by decide⟩
  have h2 := h 2 (by decide)
  revert h2
  decide

theorem witness_RegWriteEffects :
    State.reset.params.cap = .unbounded ∧ (sample.params.cap = .bounded 6 ∧ 6 ≤ 6) ∧
    (sample.params.cap = .bounded 6 ∧ 6 < 7) := by decide
theorem witness_BufWriteEffect :
    State.reset.params.cap = .unbounded ∧ ∃ cells, sample.params.cap = .bounded cells ∧ 5 < cells :=
  ⟨by decide, 6, by decide⟩
theorem witness_InputCellKeepsLastWrite :
    ∃ t u, perform (.bufWrite .ibuf 5 0x42) sample = .next t ∧
      (∀ e ∈ ([.bufWrite .ibuf 4 0x11, .regWrite 0 0x10] : List Event),
        e ≠ .reset ∧ ∀ x, e ≠ .bufWrite .ibuf 5 x) ∧
      performAll [.bufWrite .ibuf 4 0x11, .regWrite 0 0x10] t = .next u ∧
      cellExists sample.params.cap .ibuf 5 = true ∧ Memory.read sample.ibuf 5 = none :=
  ⟨_, _, rfl, by intro e he; simp at he; rcases he with rfl | rfl <;> simp, rfl, by decide⟩
theorem witness_OutputCellAccess :
    UnitInv sample ∧ 3 < sample.olen ∧ (cellExists sample.params.cap .obuf 4 = true ∧ sample.olen ≤ 4) ∧
    cellExists sample.params.cap .obuf 11 = true := ⟨sample_inv, by decide⟩
theorem witness_NoSuchRegisterOrCell :
    4 ≤ 4 ∧ (sample.params.cap = .bounded 6 ∧ 6 ≤ 6) ∧ (sample.params.cap = .bounded 6 ∧ 2 * 6 ≤ 12) := by decide
theorem witness_RepeatedTransactions :
    (∃ t, perform (.regRead 3) sample = .next t) ∧ (∃ t, perform (.bufRead .ibuf 0) sample = .next t) ∧
    (∃ t, perform (.regWrite 0 0x11) sample = .next t) ∧ (∃ t, perform (.bufWrite .ibuf 5 7) sample = .next t) ∧
    (∃ t, perform .reset sample = .next t) := ⟨⟨_, rfl⟩, ⟨_, rfl⟩, ⟨_, rfl⟩, ⟨_, rfl⟩, ⟨_, rfl⟩⟩
theorem witness_SetUpOrderFree :
    UnitInv sample ∧ (4 : Nat) ≠ 5 ∧ cellExists sample.params.cap .ibuf 5 = true ∧
    legalLength sample.params.cap 6 = true := ⟨sample_inv, by decide⟩
theorem witness_step_next : ∃ t, step (withCommand 0x10) = .next t := ⟨_, rfl⟩
theorem withCommand_inv : UnitInv (withCommand 0x10) :=
  ⟨sample_inv.params_wf, sample_inv.ibuf_wf, sample_inv.ibuf_cells, sample_inv.ilen_legal,
    sample_inv.obuf_cells, sample_inv.olen_legal, sample_inv.fault_empties, sample_inv.code_three⟩
theorem witness_StepKeepsWellFormed :
    UnitInv (withCommand 0x10) ∧ ∃ t, step (withCommand 0x10) = .next t := ⟨withCommand_inv, _, rfl⟩
theorem witness_AllowedEventsComplete : UnitInv sample ∧ allowed (.bufRead .obuf 3) sample :=
  ⟨sample_inv, by decide, by decide⟩
theorem witness_PendingRunsInOrder :
    (withCommand 0x10).pending = [.regWrite 0 0x10] ++ [.reset] := by decide
theorem witness_UnitsAreIndependent :
    ([sample, withCommand 0x10] : System)[1]? = some (withCommand 0x10) ∧
    ∃ t, step (withCommand 0x10) = .next t := ⟨by decide, _, rfl⟩
theorem witness_LoadSetsInput :
    legalLength (Capacity.bounded 6) ([1, 2, 3, 4, 5, 6] : List Byte).length = true := by decide
theorem witness_MoveCopiesOutput :
    (UnitInv sample ∧ legalLength sample.params.cap sample.olen = true) ∧
    legalLength fullUnit.params.cap fullUnit.olen = false := ⟨⟨sample_inv, by decide⟩, by decide⟩
theorem witness_ReadoutAndCheck : UnitInv sample ∧ sample.err = 0 ∧ failedUnit.err ≠ 0 := ⟨sample_inv, by decide⟩
theorem witness_RoundTrip :
    readInput sample = some [0xAB, 0xCD] ∧ legalLength sample.params.cap (2 * sample.ilen) = true := by decide

end Sys2Proof.Tests
end

/-! PROOFS of the statements about a step's event and about the state after reset. -/

namespace Sys2Proof.Machine

/-- A reset's next state is `resetUnit`, and it has no other outcome (R120). -/
theorem perform_reset_eq_next_iff {s t : State} : perform .reset s = .next t ↔ t = resetUnit s :=
  ⟨fun h => (Host.Outcome.next.inj h).symm, fun h => h ▸ rfl⟩

/-- Settles O6: `step_idle`, `step_cons` and the frame of `resetUnit`. -/
theorem stepTakesOldestEvent : Obligations.StepTakesOldestEvent := by
  refine ⟨fun s hidle => step_idle hidle, fun s e rest hp => step_cons hp, fun s t ht => ?_⟩
  obtain rfl := perform_reset_eq_next_iff.mp ht
  exact ⟨resetUnit_pending s, resetUnit_returned s⟩

/-- The empty buffer fits every capacity (R28, R33). -/
@[simp] theorem legalLength_zero (cap : Capacity) : legalLength cap 0 = true := by
  cases cap with
  | bounded cells => exact decide_eq_true (Nat.zero_le cells)
  | unbounded => rfl

/-- R120, R124: reset makes any unit well formed whose parameters are, since it leaves both buffers
empty, both lengths 0 and no fault. -/
theorem resetUnit_inv {s : State} (hp : s.params.wellFormed = true) : UnitInv (resetUnit s) where
  params_wf := hp
  ibuf_wf := List.Pairwise.nil
  ibuf_cells := by simp
  ilen_legal := legalLength_zero _
  obuf_cells := rfl
  olen_legal := by simp
  fault_empties _ := rfl
  code_three := by simp

/-- Settles O43: `State.reset` is its own reset, and its parameters are well formed. -/
theorem resetIsWellFormed : Obligations.ResetIsWellFormed :=
  resetUnit_inv (s := State.reset) rfl

end Sys2Proof.Machine

/-! PROOFS about the state, each operation's rule stated once: capacities, the command word, when a
command answers and what, when an event answers, and what every step keeps. -/

namespace Sys2Proof.Machine

/-! Capacities. -/

@[simp] theorem legalLength_unbounded (n : Nat) : legalLength .unbounded n = true := rfl

@[simp] theorem legalLength_bounded_iff {cells n : Nat} :
    legalLength (.bounded cells) n = true ↔ n ≤ cells := decide_eq_true_iff

@[simp] theorem inputCellExists_bounded_iff {cells i : Nat} :
    inputCellExists (.bounded cells) i = true ↔ i < cells := decide_eq_true_iff

@[simp] theorem outputCellExists_bounded_iff {cells j : Nat} :
    outputCellExists (.bounded cells) j = true ↔ j < 2 * cells := decide_eq_true_iff

@[simp] theorem registerExists_iff {r : Nat} : registerExists r = true ↔ r < 4 := decide_eq_true_iff

/-- R5, R20: twice a legal input length of output cells exist. -/
theorem outputCellExists_of_lt_two_mul {cap : Capacity} {n j : Nat} (hn : legalLength cap n = true)
    (hj : j < 2 * n) : outputCellExists cap j = true := by
  cases cap with
  | bounded cells =>
    rw [legalLength_bounded_iff] at hn
    rw [outputCellExists_bounded_iff]
    omega
  | unbounded => rfl

/-! The command word. -/

/-- R53, R59: the word of a command decodes to it. -/
@[simp] theorem decode_encode (i : Instr) : decode (encode i) = .ok i := by
  cases i <;> decide

/-- R59, R81: a legal word runs its command. -/
theorem execute_of_decode_ok {w : Byte} {i : Instr} (h : decode w = .ok i) (s : State) :
    execute w s = exec i s := by
  simp only [execute, h]

/-- R60, R104: an illegal word fails, whatever the state. -/
theorem execute_of_decode_error {w : Byte} {r : IllegalWord} (h : decode w = .error r) (s : State) :
    execute w s = .next (failCommand .illegalCommand s) := by
  simp only [execute, h]

/-- R39: a Byte written to `CMD` is executed. -/
theorem perform_regWrite_cmd (w : Byte) (s : State) :
    perform (.regWrite 0 w.toNat) s = execute w s := by
  have hw : writeCommand w.toNat s = execute (BitVec.ofNat 8 w.toNat) s := if_pos w.isLt
  rw [BitVec.ofNat_toNat, BitVec.setWidth_eq] at hw
  exact hw

/-! The input buffer and the commands, run forwards (`exec_next` is the converse). -/

/-- R125: the input is loaded exactly when it can be read. -/
theorem inputLoaded_iff_readInput {s : State} : inputLoaded s ↔ ∃ bs, readInput s = some bs := by
  rw [← Option.isSome_iff_exists, readInput_isSome_iff, inputLoaded]

/-- The input buffer is `ILEN` and the cells below it, and nothing else of the state. -/
theorem readInput_congr {s s' : State} (hlen : s.ilen = s'.ilen)
    (hcells : ∀ k < s.ilen, Memory.read s.ibuf k = Memory.read s'.ibuf k) :
    readInput s = readInput s' := by
  refine Option.ext fun bs => ?_
  rw [readInput_eq_some_iff, readInput_eq_some_iff, ← hlen]
  refine and_congr_right fun _ => forall₂_congr fun k hk => ?_
  rw [hcells k hk]

theorem exec_splitOf (o : NybbleOrder) (s : State) : exec (splitOf o) s = splitInput o s := by
  cases o <;> rfl

theorem exec_combineOf (o : NybbleOrder) (s : State) : exec (combineOf o) s = combineInput o s := by
  cases o <;> rfl

/-- R82: a split of an input that can be read succeeds. -/
theorem exec_splitOf_of_readInput {s : State} {bs : List Byte} (o : NybbleOrder)
    (h : readInput s = some bs) : exec (splitOf o) s = .next (succeedCommand (split o bs) s) := by
  rw [exec_splitOf]
  simp only [splitInput, h]

/-- R103: a combine of an odd length fails, whatever the cells hold. -/
theorem exec_combineOf_of_odd {s : State} (o : NybbleOrder) (h : s.ilen % 2 = 1) :
    exec (combineOf o) s = .next (failCommand .invalidLength s) := by
  rw [exec_combineOf]
  exact if_pos h

section
variable {s : State} {d : List Byte} {o : NybbleOrder}

/-- R85: where the length is even the combine of the input is the loop over its pairs. -/
theorem combine_readInput_eq_combinePairs (heven : s.ilen % 2 ≠ 1) (hd : readInput s = some d) :
    combine s.params.oorPolicy o d = combinePairs s.params.oorPolicy o d :=
  combine_even _ _ (((readInput_eq_some_iff s d).mp hd).1 ▸ heven)

/-- R85, R86, R87: a combine of an even length whose pairs all pack succeeds. -/
theorem exec_combineOf_of_ok {result : List Byte} (heven : s.ilen % 2 ≠ 1)
    (hd : readInput s = some d) (hr : combinePairs s.params.oorPolicy o d = .ok result) :
    exec (combineOf o) s = .next (succeedCommand result s) := by
  rw [exec_combineOf, combineInput, if_neg heven]
  simp only [hd, combine_readInput_eq_combinePairs heven hd, hr]

/-- R85, R105: a combine of an even length with a pair that does not pack fails. -/
theorem exec_combineOf_of_error {e : CommandFault} (heven : s.ilen % 2 ≠ 1)
    (hd : readInput s = some d) (he : combinePairs s.params.oorPolicy o d = .error e) :
    exec (combineOf o) s = .next (failCommand e s) := by
  rw [exec_combineOf, combineInput, if_neg heven]
  simp only [hd, combine_readInput_eq_combinePairs heven hd, he]

end

/-- R88: a split doubles the length. -/
@[simp] theorem split_length (o : NybbleOrder) (bs : List Byte) :
    (split o bs).length = 2 * bs.length := by
  induction bs with
  | nil => rfl
  | cons b bs ih =>
    rw [split_cons, List.length_append, emit_length, ih, List.length_cons]
    omega

/-- R85, R89: a combine writes one Byte for each whole pair. -/
theorem combinePairs_length {p : OorPolicy} {o : NybbleOrder} :
    ∀ {d result : List Byte}, combinePairs p o d = .ok result → result.length = d.length / 2
  | [], _, h => by cases h; rfl
  | [_], _, h => by cases h; simp
  | a :: b :: rest, _, h => by
    rw [combinePairs_cons] at h
    split at h
    · cases h
    · cases h
    · rename_i xs hx hxs
      cases h
      rw [List.length_cons, combinePairs_length hxs, List.length_cons, List.length_cons]
      omega

/-! When an event answers a next state. -/

theorem exec_splitOf_completes_iff {o : NybbleOrder} {s : State} :
    (∃ t, exec (splitOf o) s = .next t) ↔ inputLoaded s := by
  rw [inputLoaded_iff_readInput]
  constructor
  · rintro ⟨t, ht⟩
    rw [exec_splitOf] at ht
    obtain ⟨bs, hbs, -⟩ := splitInput_next ht
    exact ⟨bs, hbs⟩
  · rintro ⟨bs, hbs⟩
    exact ⟨_, exec_splitOf_of_readInput o hbs⟩

theorem exec_combineOf_completes_iff {o : NybbleOrder} {s : State} :
    (∃ t, exec (combineOf o) s = .next t) ↔ s.ilen % 2 = 1 ∨ inputLoaded s := by
  rw [inputLoaded_iff_readInput]
  constructor
  · rintro ⟨t, ht⟩
    rw [exec_combineOf] at ht
    rcases combineInput_next ht with ⟨hodd, -⟩ | ⟨-, d, hd, -⟩
    · exact .inl hodd
    · exact .inr ⟨d, hd⟩
  · intro h
    by_cases hodd : s.ilen % 2 = 1
    · exact ⟨_, exec_combineOf_of_odd o hodd⟩
    · obtain ⟨d, hd⟩ := h.resolve_left hodd
      cases hr : combinePairs s.params.oorPolicy o d with
      | ok result => exact ⟨_, exec_combineOf_of_ok hodd hd hr⟩
      | error e => exact ⟨_, exec_combineOf_of_error hodd hd hr⟩

/-- R81, R125: a word executes to a next state exactly when its command reads no cell without a value. -/
theorem execute_completes_iff {w : Byte} {s : State} :
    (∃ t, execute w s = .next t) ↔ commandReady w s := by
  unfold commandReady
  cases hw : decode w with
  | error r => simp [execute_of_decode_error hw]
  | ok i =>
    rw [execute_of_decode_ok hw]
    cases i with
    | splitH => exact exec_splitOf_completes_iff (o := .highFirst)
    | splitL => exact exec_splitOf_completes_iff (o := .lowFirst)
    | combineH => exact exec_combineOf_completes_iff (o := .highFirst)
    | combineL => exact exec_combineOf_completes_iff (o := .lowFirst)

theorem writeCommand_completes_iff {v : Nat} {s : State} :
    (∃ t, writeCommand v s = .next t) ↔ v < 256 ∧ commandReady (BitVec.ofNat 8 v) s := by
  unfold writeCommand
  by_cases hv : v < 256
  · simp [hv, execute_completes_iff]
  · simp [hv]

theorem writeLength_completes_iff {v : Nat} {s : State} :
    (∃ t, writeLength v s = .next t) ↔ legalLength s.params.cap v = true := by
  unfold writeLength
  by_cases hv : legalLength s.params.cap v = true <;> simp [hv]

/-- R27: no register has an index of 4 or more. -/
theorem readRegister_eq_none {r : Nat} (s : State) (h : 4 ≤ r) : readRegister s r = none := by
  obtain ⟨k, rfl⟩ := Nat.exists_eq_add_of_le' h
  rfl

/-- R27, U6: a read of no register stops. -/
theorem regRead_of_four_le {r : Nat} (s : State) (h : 4 ≤ r) :
    regRead r s = .fault .noSuchRegister := by
  simp only [regRead, readRegister_eq_none s h]

/-- R27, U6: a write of no register stops. -/
theorem regWrite_of_four_le {r : Nat} (v : Nat) (s : State) (h : 4 ≤ r) :
    regWrite r v s = .fault .noSuchRegister := by
  obtain ⟨k, rfl⟩ := Nat.exists_eq_add_of_le' h
  rfl

theorem regRead_completes_iff {r : Nat} {s : State} : (∃ t, regRead r s = .next t) ↔ r < 4 := by
  match r with
  | 0 | 1 | 2 | 3 => simp [regRead, readRegister]
  | k + 4 => simp [regRead_of_four_le s (Nat.le_add_left 4 k)]

theorem readInputCell_completes_iff {i : Nat} {s : State} :
    (∃ t, readInputCell i s = .next t) ↔
      inputCellExists s.params.cap i = true ∧ (Memory.read s.ibuf i).isSome = true := by
  unfold readInputCell
  by_cases hi : inputCellExists s.params.cap i = true
  · cases hb : Memory.read s.ibuf i <;> simp [hi]
  · simp [hi]

/-- R20, R21: in a well-formed state the output cells below `OLEN` hold values, and no others. -/
theorem UnitInv.read_obuf_isSome_iff {s : State} (hs : UnitInv s) {j : Nat} :
    (Memory.read s.obuf j).isSome = true ↔ j < s.olen := by
  rw [Memory.read_isSome_iff, hs.obuf_cells, List.mem_range]

theorem readOutputCell_completes_iff {j : Nat} {s : State} (hs : UnitInv s) :
    (∃ t, readOutputCell j s = .next t) ↔
      outputCellExists s.params.cap j = true ∧ j < s.olen := by
  unfold readOutputCell
  by_cases hj : outputCellExists s.params.cap j = true
  · by_cases hlt : j < s.olen
    · obtain ⟨b, hb⟩ := Option.isSome_iff_exists.mp (hs.read_obuf_isSome_iff.mpr hlt)
      simp [hj, hlt, hb]
    · simp [hj, hlt]
  · simp [hj]

theorem bufWrite_completes_iff {space : BufSpace} {i : Nat} {v : Byte} {s : State} :
    (∃ t, bufWrite space i v s = .next t) ↔ cellExists s.params.cap space i = true := by
  cases space with
  | ibuf => by_cases hi : inputCellExists s.params.cap i = true <;> simp [bufWrite, cellExists, hi]
  | obuf => by_cases hi : outputCellExists s.params.cap i = true <;> simp [bufWrite, cellExists, hi]

/-- Settles O45: by the kind of event, the model's tests are the conditions of `allowed`. -/
theorem allowedEventsComplete : Obligations.AllowedEventsComplete := by
  intro s e hs
  match e with
  | .regRead r => simp [allowed, Event.wellFormed, perform, regRead_completes_iff]
  | .regWrite 0 v =>
    simp [allowed, Event.wellFormed, perform, regWrite, writeCommand_completes_iff]
  | .regWrite 1 v => simp [allowed, Event.wellFormed, perform, regWrite]
  | .regWrite 2 v => simp [allowed, Event.wellFormed, perform, regWrite, writeLength_completes_iff]
  | .regWrite 3 v => simp [allowed, Event.wellFormed, perform, regWrite]
  | .regWrite (k + 4) v =>
    simp [allowed, Event.wellFormed, perform, regWrite_of_four_le v s (Nat.le_add_left 4 k)]
  | .bufRead .ibuf i =>
    simp [allowed, Event.wellFormed, cellExists, perform, bufRead, readInputCell_completes_iff]
  | .bufRead .obuf j =>
    simp [allowed, Event.wellFormed, cellExists, perform, bufRead, readOutputCell_completes_iff hs]
  | .bufWrite space i v => simp [allowed, Event.wellFormed, perform, bufWrite_completes_iff]
  | .reset => simp [allowed, Event.wellFormed, perform]

/-! What every step keeps. -/

section
variable {s : State} (hs : UnitInv s)
include hs

/-- A well-formed state stays so when a result of at most twice the input length is written. -/
theorem succeedCommand_inv {result : List Byte} (hlen : result.length ≤ 2 * s.ilen) :
    UnitInv (succeedCommand result s) :=
  { hs with
    obuf_cells := Memory.ofBytes_fst result
    olen_legal := fun _ hj => outputCellExists_of_lt_two_mul hs.ilen_legal (hj.trans_le hlen)
    fault_empties := fun herr => absurd rfl herr
    code_three := fun herr => by cases herr }

/-- A well-formed state stays so when a command fails, with InvalidNybble only under `REJECT`. -/
theorem failCommand_inv {e : CommandFault}
    (hreject : e = .invalidNybble → s.params.oorPolicy = .reject) : UnitInv (failCommand e s) :=
  { hs with
    obuf_cells := rfl
    olen_legal := by simp
    fault_empties := fun _ => rfl
    code_three := fun hcode => hreject <| by
      cases e with
      | invalidNybble => rfl
      | invalidLength => cases hcode
      | illegalCommand => cases hcode }

theorem setInputLength_inv {n : Nat} (hn : legalLength s.params.cap n = true) :
    UnitInv (setInputLength n s) :=
  { hs with ilen_legal := hn }

theorem writeInput_inv {i : Nat} (v : Byte) (hi : inputCellExists s.params.cap i = true) :
    UnitInv (writeInput i v s) :=
  { hs with
    ibuf_wf := Memory.wf_write hs.ibuf_wf i v
    ibuf_cells := fun c hc => by
      rcases Memory.mem_write hc with rfl | hc
      · exact hi
      · exact hs.ibuf_cells c hc }

theorem returnValue_inv (v : ReadValue) : UnitInv (returnValue v s) := { hs with }

theorem setPending_inv (es : List Event) : UnitInv (setPending es s) := { hs with }

/-- Every command keeps the well-formed states. -/
theorem exec_inv {i : Instr} {t : State} (h : exec i s = .next t) : UnitInv t := by
  rcases exec_next h with ⟨o, bs, -, hbs, rfl⟩ | ⟨o, -, -, rfl⟩ |
      ⟨o, d, -, -, hd, ⟨result, hr, rfl⟩ | ⟨hreject, -, rfl⟩⟩
  · have hlen := ((readInput_eq_some_iff s bs).mp hbs).1
    exact succeedCommand_inv hs (by rw [split_length, hlen])
  · exact failCommand_inv hs nofun
  · have hlen := ((readInput_eq_some_iff s d).mp hd).1
    have hhalf := combinePairs_length hr
    exact succeedCommand_inv hs (by omega)
  · exact failCommand_inv hs fun _ => hreject

theorem execute_inv {w : Byte} {t : State} (h : execute w s = .next t) : UnitInv t := by
  rcases execute_next h with ⟨i, -, hi⟩ | ⟨r, -, rfl⟩
  · exact exec_inv hs hi
  · exact failCommand_inv hs nofun

/-- Every event keeps the well-formed states. -/
theorem perform_inv {e : Event} {t : State} (h : perform e s = .next t) : UnitInv t := by
  rcases perform_next h with rfl | ⟨v, rfl⟩ | ⟨n, -, hn, rfl⟩ | ⟨i, v, -, hi, rfl⟩ | ⟨-, rfl⟩ |
      ⟨v, -, -, hw⟩
  · exact hs
  · exact returnValue_inv hs v
  · exact setInputLength_inv hs hn
  · exact writeInput_inv hs v hi
  · exact resetUnit_inv hs.params_wf
  · exact execute_inv hs hw

end

/-- Settles O44: an idle step changes nothing, and every event keeps the invariant. -/
theorem stepKeepsWellFormed : Obligations.StepKeepsWellFormed := by
  intro s t hs h
  rcases step_next h with ⟨-, rfl⟩ | ⟨e, es, -, he⟩
  · exact hs
  · exact perform_inv (setPending_inv hs es) he

/-! The other statements about commands, transactions and reset. -/

/-- Settles O30: the command takes the same branch in both states, since `ILEN`, what `readInput`
answers and the policy decide it, and the branch writes a result or a fault that they determine. -/
theorem commandIsStateless : Obligations.CommandIsStateless := by
  intro w s s' hlen hcells hpolicy t ht
  have hread := readInput_congr hlen hcells
  rcases execute_next ht with ⟨i, hw, hi⟩ | ⟨r, hw, rfl⟩
  · rw [execute_of_decode_ok hw]
    rcases exec_next hi with ⟨o, bs, rfl, hbs, rfl⟩ | ⟨o, rfl, hodd, rfl⟩ |
        ⟨o, d, rfl, heven, hd, ⟨result, hr, rfl⟩ | ⟨-, he, rfl⟩⟩
    · exact ⟨_, exec_splitOf_of_readInput o (hread ▸ hbs), rfl, rfl, rfl⟩
    · exact ⟨_, exec_combineOf_of_odd o (hlen ▸ hodd), rfl, rfl, rfl⟩
    · exact ⟨_, exec_combineOf_of_ok (hlen ▸ heven) (hread ▸ hd) (hpolicy ▸ hr), rfl, rfl, rfl⟩
    · exact ⟨_, exec_combineOf_of_error (hlen ▸ heven) (hread ▸ hd) (hpolicy ▸ he), rfl, rfl, rfl⟩
  · exact ⟨_, execute_of_decode_error hw s', rfl, rfl, rfl⟩

/-- Settles O5: the step performs the `CMD` write, which executes the word. -/
theorem stepRunsDecodedCommand : Obligations.StepRunsDecodedCommand := by
  intro s w rest hp
  have hstep : step s = execute w (setPending rest s) :=
    (step_cons hp).trans (perform_regWrite_cmd w _)
  exact ⟨fun i hi => hstep.trans (execute_of_decode_ok hi _),
    fun r hr => hstep.trans (execute_of_decode_error hr _)⟩

/-- Settles O7: the placed `CMD` write is taken up, and its word decodes to the command. -/
theorem placedWordRunsNext : Obligations.PlacedWordRunsNext := by
  intro i s
  have hword : BitVec.ofNat 8 ((encode i).toNat % 2 ^ 8) = encode i := by
    rw [Nat.mod_eq_of_lt (encode i).isLt, BitVec.ofNat_toNat, BitVec.setWidth_eq]
  calc step (s.withFetchWord 8 (encode i).toNat)
      = step (queueCommand (encode i) s) := by rw [State.withFetchWord, hword]
    _ = perform (.regWrite 0 (encode i).toNat) s := step_cons rfl
    _ = execute (encode i) s := perform_regWrite_cmd _ s
    _ = exec i s := execute_of_decode_ok (decode_encode i) s

/-- R28, R39: a write of a legal length sets `ILEN`. -/
theorem perform_regWrite_ilen_of_legal {v : Nat} {s : State} (h : legalLength s.params.cap v = true) :
    perform (.regWrite 2 v) s = .next (setInputLength v s) := if_pos h

/-- R28: a write of a length above `CAP` is refused. -/
theorem perform_regWrite_ilen_of_not_legal {v : Nat} {s : State}
    (h : ¬ legalLength s.params.cap v = true) :
    perform (.regWrite 2 v) s = .refused .lengthAboveCapacity := if_neg h

/-- Settles O33: register by register. -/
theorem regWriteEffects : Obligations.RegWriteEffects := by
  intro s
  refine ⟨fun w => perform_regWrite_cmd w s, fun _ => rfl, fun v hcap => ?_, fun v cells hcap hv => ?_,
    fun v cells hcap hv => ?_, fun _ => rfl⟩
  · exact perform_regWrite_ilen_of_legal (by rw [hcap, legalLength_unbounded])
  · exact perform_regWrite_ilen_of_legal (by rwa [hcap, legalLength_bounded_iff])
  · exact perform_regWrite_ilen_of_not_legal (by rwa [hcap, legalLength_bounded_iff, Nat.not_le])

/-- Settles O37: the existence test comes first in every access. -/
theorem noSuchRegisterOrCell : Obligations.NoSuchRegisterOrCell := by
  intro s
  refine ⟨fun r hr => ⟨regRead_of_four_le s hr, fun v => regWrite_of_four_le v s hr⟩,
    fun cells i hcap hi => ?_, fun cells j hcap hj => ?_⟩
  · have hno : ¬ inputCellExists s.params.cap i = true := by
      rwa [hcap, inputCellExists_bounded_iff, Nat.not_lt]
    exact ⟨if_neg hno, fun v => if_neg hno⟩
  · have hno : ¬ outputCellExists s.params.cap j = true := by
      rwa [hcap, outputCellExists_bounded_iff, Nat.not_lt]
    exact ⟨if_neg hno, fun v => if_neg hno⟩

/-- Settles O40: the reset state holds no cell and zero lengths, and a split of its empty input writes
just that. -/
theorem resetStateValues : Obligations.ResetStateValues := by
  have hsplit : ∀ o, exec (splitOf o) State.reset = .next State.reset :=
    fun o => exec_splitOf_of_readInput o (s := State.reset) (bs := []) rfl
  exact ⟨Memory.read_nil, rfl, Memory.read_nil, rfl, rfl, hsplit .highFirst, hsplit .lowFirst⟩

end Sys2Proof.Machine

/-! PROOFS about the host's transactions and what they leave: the rule of each read and write, what a
command leaves as it was, what events keep, and events repeated or pending. -/

namespace Sys2Proof.Machine

/-! What a command leaves. -/

theorem succeedCommand_frame (result : List Byte) (s : State) :
    CommandFrame s (succeedCommand result s) := ⟨fun _ => rfl, rfl, rfl, rfl, rfl, rfl⟩

theorem failCommand_frame (e : CommandFault) (s : State) : CommandFrame s (failCommand e s) :=
  ⟨fun _ => rfl, rfl, rfl, rfl, rfl, rfl⟩

theorem failCommand_outputEmpty (e : CommandFault) (s : State) : outputEmpty (failCommand e s) :=
  ⟨rfl, Memory.read_nil⟩

/-- R81: a command ends with `Succeed` of a result or with `Fail` of a fault. -/
theorem execute_next_succeed_or_fail {w : Byte} {s t : State} (h : execute w s = .next t) :
    (∃ result, t = succeedCommand result s) ∨ ∃ e, t = failCommand e s := by
  rcases execute_next h with ⟨i, -, hi⟩ | ⟨r, -, rfl⟩
  · rcases exec_next hi with ⟨o, bs, -, -, rfl⟩ | ⟨o, -, -, rfl⟩ |
        ⟨o, d, -, -, -, ⟨result, -, rfl⟩ | ⟨-, -, rfl⟩⟩
    · exact .inl ⟨_, rfl⟩
    · exact .inr ⟨_, rfl⟩
    · exact .inl ⟨_, rfl⟩
    · exact .inr ⟨_, rfl⟩
  · exact .inr ⟨_, rfl⟩

/-- R98: every command keeps the input and everything but `OBUF`, `OLEN` and `STATUS.ERR`. -/
theorem execute_frame {w : Byte} {s t : State} (h : execute w s = .next t) : CommandFrame s t := by
  rcases execute_next_succeed_or_fail h with ⟨result, rfl⟩ | ⟨e, rfl⟩
  · exact succeedCommand_frame result s
  · exact failCommand_frame e s

/-- The frame and the three fields a command writes are the whole state. -/
theorem CommandFrame.eq_of_output {s t : State} (h : CommandFrame s t) (hobuf : t.obuf = s.obuf)
    (holen : t.olen = s.olen) (herr : t.err = s.err) : t = s := by
  obtain ⟨-, hibuf, hilen, hparams, hpending, hreturned⟩ := h
  cases s
  cases t
  simp_all

/-! The buffer transactions, each rule once. -/

/-- R41: when a read of an input cell answers, and what. -/
theorem perform_bufRead_ibuf_eq_next_iff {i : Nat} {s t : State} :
    perform (.bufRead .ibuf i) s = .next t ↔
      inputCellExists s.params.cap i = true ∧
        ∃ b, Memory.read s.ibuf i = some b ∧ t = returnValue (.byte b) s := by
  simp only [perform, bufRead, readInputCell]
  by_cases hi : inputCellExists s.params.cap i = true
  · cases hb : Memory.read s.ibuf i <;> simp [hi, eq_comm]
  · simp [hi]

/-- R41, R122: a read of an input cell without a value is refused. -/
theorem perform_bufRead_ibuf_of_none {i : Nat} {s : State}
    (hi : inputCellExists s.params.cap i = true) (hnone : Memory.read s.ibuf i = none) :
    perform (.bufRead .ibuf i) s = .refused .inputCellUnwritten := by
  simp only [perform, bufRead, readInputCell, if_pos hi, hnone]

/-- R42: when a read of an output cell answers, and what. -/
theorem perform_bufRead_obuf_eq_next_iff {j : Nat} {s t : State} :
    perform (.bufRead .obuf j) s = .next t ↔
      outputCellExists s.params.cap j = true ∧ j < s.olen ∧
        ∃ b, Memory.read s.obuf j = some b ∧ t = returnValue (.byte b) s := by
  simp only [perform, bufRead, readOutputCell]
  by_cases hj : outputCellExists s.params.cap j = true
  · by_cases hlt : j < s.olen
    · cases hb : Memory.read s.obuf j <;> simp [hj, hlt, eq_comm]
    · simp [hj, hlt]
  · simp [hj]

/-- R42: a read of an output cell at or above `OLEN` is refused. -/
theorem perform_bufRead_obuf_of_olen_le {j : Nat} {s : State}
    (hj : outputCellExists s.params.cap j = true) (hle : s.olen ≤ j) :
    perform (.bufRead .obuf j) s = .refused .outputNotVisible := by
  simp only [perform, bufRead, readOutputCell, if_pos hj, if_neg (Nat.not_lt.mpr hle)]

/-- R40: when a write of an input cell completes, and with what. -/
theorem perform_bufWrite_ibuf_eq_next_iff {i : Nat} {v : Byte} {s t : State} :
    perform (.bufWrite .ibuf i v) s = .next t ↔
      inputCellExists s.params.cap i = true ∧ t = writeInput i v s := by
  simp only [perform, bufWrite]
  by_cases hi : inputCellExists s.params.cap i = true <;> simp [hi, eq_comm]

/-- R42: when a write of an output cell completes, and that it changes nothing. -/
theorem perform_bufWrite_obuf_eq_next_iff {j : Nat} {v : Byte} {s t : State} :
    perform (.bufWrite .obuf j v) s = .next t ↔
      outputCellExists s.params.cap j = true ∧ t = s := by
  simp only [perform, bufWrite]
  by_cases hj : outputCellExists s.params.cap j = true <;> simp [hj, eq_comm]

/-- R38: when a register read answers, and what. -/
theorem perform_regRead_eq_next_iff {r : Nat} {s t : State} :
    perform (.regRead r) s = .next t ↔
      ∃ v, readRegister s r = some v ∧ t = returnValue v s := by
  simp only [perform, regRead]
  cases readRegister s r <;> simp [eq_comm]

/-- R39: when a write of `ILEN` completes, and with what. -/
theorem perform_regWrite_ilen_eq_next_iff {n : Nat} {s t : State} :
    perform (.regWrite 2 n) s = .next t ↔
      legalLength s.params.cap n = true ∧ t = setInputLength n s := by
  by_cases hn : legalLength s.params.cap n = true
  · simp [perform_regWrite_ilen_of_legal hn, hn, eq_comm]
  · simp [perform_regWrite_ilen_of_not_legal hn, hn]

/-! A command that failed. -/

/-- Settles O29: an error code rules out `Succeed`, and after `Fail` no output cell is below
`OLEN`. -/
theorem failureLeavesNoResult : Obligations.FailureLeavesNoResult := by
  intro w s t h herr
  rcases execute_next_succeed_or_fail h with ⟨result, rfl⟩ | ⟨e, rfl⟩
  · exact absurd rfl herr
  · refine ⟨⟨e, rfl, rfl⟩, failCommand_outputEmpty e s, failCommand_frame e s, fun j u hread => ?_⟩
    obtain ⟨-, hlt, -⟩ := perform_bufRead_obuf_eq_next_iff.mp hread
    exact Nat.not_lt_zero j hlt

/-! Cells without a value. -/

theorem readInput_eq_none_of_not_loaded {s : State} (h : ¬ inputLoaded s) : readInput s = none :=
  Option.eq_none_iff_forall_ne_some.mpr fun bs hbs => h (inputLoaded_iff_readInput.mpr ⟨bs, hbs⟩)

/-- R122, U2: a split of an input that is not loaded is refused. -/
theorem exec_splitOf_of_not_loaded {s : State} (o : NybbleOrder) (h : ¬ inputLoaded s) :
    exec (splitOf o) s = .refused .inputNotLoaded := by
  rw [exec_splitOf]
  simp only [splitInput, readInput_eq_none_of_not_loaded h]

/-- R122, U2: a combine of an even length of input that is not loaded is refused. -/
theorem exec_combineOf_of_not_loaded {s : State} (o : NybbleOrder) (heven : s.ilen % 2 = 0)
    (h : ¬ inputLoaded s) : exec (combineOf o) s = .refused .inputNotLoaded := by
  rw [exec_combineOf, combineInput, if_neg (by omega)]
  simp only [readInput_eq_none_of_not_loaded h]

/-- Settles O31: reset empties both buffers, and each reader of a cell refuses one without a value. -/
theorem cellsWithoutValueAreRefused : Obligations.CellsWithoutValueAreRefused := by
  refine ⟨fun s t hreset a => ?_, fun s hs => ⟨?_, ?_, fun heven => ⟨?_, ?_⟩⟩,
    fun s i hi hnone => perform_bufRead_ibuf_of_none hi hnone,
    fun s j hj hle => perform_bufRead_obuf_of_olen_le hj hle⟩
  · obtain rfl := perform_reset_eq_next_iff.mp hreset
    exact ⟨Memory.read_nil a, Memory.read_nil a⟩
  · exact exec_splitOf_of_not_loaded .highFirst hs
  · exact exec_splitOf_of_not_loaded .lowFirst hs
  · exact exec_combineOf_of_not_loaded .highFirst heven hs
  · exact exec_combineOf_of_not_loaded .lowFirst heven hs

/-! Reads and writes. -/

/-- R23: `STATUS` as a number is `ERR`. -/
theorem statusByte_toNat (err : BitVec 2) : (statusByte err).toNat = err.toNat :=
  (BitVec.toNat_append (0 : BitVec 6) err).trans (by simp)

/-- Settles O32: `readRegister` register by register. -/
theorem regReadReturns : Obligations.RegReadReturns :=
  fun s => ⟨rfl, ⟨statusByte s.err, statusByte_toNat s.err, rfl⟩, rfl, rfl⟩

/-- Settles O34: the write of an existing cell is `writeInput`, which writes one cell. -/
theorem bufWriteEffect : Obligations.BufWriteEffect := by
  intro s i v hcap
  have hi : inputCellExists s.params.cap i = true := by
    rcases hcap with hcap | ⟨cells, hcap, hlt⟩
    · rw [hcap]; rfl
    · rwa [hcap, inputCellExists_bounded_iff]
  refine ⟨writeInput i v s, perform_bufWrite_ibuf_eq_next_iff.mpr ⟨hi, rfl⟩, ?_, fun a ha => ?_, rfl⟩
  · rw [writeInput_ibuf, Memory.read_write, if_pos rfl]
  · rw [writeInput_ibuf, Memory.read_write, if_neg ha]

/-- Settles O36: below `OLEN` a well-formed state has a value in every cell, and every such cell
exists. -/
theorem outputCellAccess : Obligations.OutputCellAccess := by
  intro s hs
  refine ⟨fun j hj => ?_, fun j hcell hle => perform_bufRead_obuf_of_olen_le hcell hle,
    fun j v hcell => perform_bufWrite_obuf_eq_next_iff.mpr ⟨hcell, rfl⟩⟩
  obtain ⟨b, hb⟩ := Option.isSome_iff_exists.mp (hs.read_obuf_isSome_iff.mpr hj)
  exact ⟨b, hb, perform_bufRead_obuf_eq_next_iff.mpr ⟨hs.olen_legal j hj, hj, b, hb, rfl⟩⟩

/-! An input cell keeps its value. -/

/-- What events performed in order keep, each of them keeping it. -/
theorem performAll_keeps {P : State → Prop} {es : List Event}
    (hkeep : ∀ e ∈ es, ∀ s t, P s → perform e s = .next t → P t) {s u : State} (hs : P s)
    (h : performAll es s = .next u) : P u := by
  induction es generalizing s with
  | nil =>
    cases h
    exact hs
  | cons e es ih =>
    rw [performAll] at h
    split at h
    · rename_i t ht
      exact ih (fun f hf => hkeep f (List.mem_cons_of_mem _ hf))
        (hkeep e List.mem_cons_self s t hs ht) h
    · cases h
    · cases h

/-- The input cell `i` exists and holds `v`: a read of it returns `v`. -/
structure InputCellHolds (i : Nat) (v : Byte) (s : State) : Prop where
  cell_exists : inputCellExists s.params.cap i = true
  read_eq : Memory.read s.ibuf i = some v

/-- R41: a read of a cell that holds a value. -/
theorem InputCellHolds.perform_bufRead {i : Nat} {v : Byte} {s : State} (h : InputCellHolds i v s) :
    perform (.bufRead .ibuf i) s = .next (returnValue (.byte v) s) :=
  perform_bufRead_ibuf_eq_next_iff.mpr ⟨h.cell_exists, v, h.read_eq, rfl⟩

/-- R40: a completed write leaves the value in its cell. -/
theorem InputCellHolds.of_perform_bufWrite {i : Nat} {v : Byte} {s t : State}
    (h : perform (.bufWrite .ibuf i v) s = .next t) : InputCellHolds i v t := by
  obtain ⟨hi, rfl⟩ := perform_bufWrite_ibuf_eq_next_iff.mp h
  refine ⟨hi, ?_⟩
  rw [writeInput_ibuf, Memory.read_write, if_pos rfl]

/-- R40, R98: every event but a reset and a write of the cell leaves its value, commands among them. -/
theorem InputCellHolds.perform_keeps {i : Nat} {v : Byte} {e : Event} {s t : State}
    (hreset : e ≠ .reset) (hwrite : ∀ x, e ≠ .bufWrite .ibuf i x) (hs : InputCellHolds i v s)
    (h : perform e s = .next t) : InputCellHolds i v t := by
  rcases perform_next h with rfl | ⟨x, rfl⟩ | ⟨n, -, -, rfl⟩ | ⟨j, x, rfl, -, rfl⟩ | ⟨rfl, -⟩ |
      ⟨x, -, -, hw⟩
  · exact hs
  · exact ⟨hs.cell_exists, hs.read_eq⟩
  · exact ⟨hs.cell_exists, hs.read_eq⟩
  · have hij : i ≠ j := fun hij => hwrite x (hij ▸ rfl)
    refine ⟨hs.cell_exists, ?_⟩
    rw [writeInput_ibuf, Memory.read_write, if_neg hij, hs.read_eq]
  · exact absurd rfl hreset
  · have hframe := execute_frame hw
    exact ⟨hframe.params ▸ hs.cell_exists, (hframe.input_cells i).trans hs.read_eq⟩

/-- Settles O35: the write leaves the value in the cell, the events between keep it there, and the
read returns it. -/
theorem inputCellKeepsLastWrite : Obligations.InputCellKeepsLastWrite := by
  refine ⟨fun s t u i v es hwrite hes hu => ?_,
    fun s i hi hnone => perform_bufRead_ibuf_of_none hi hnone⟩
  have hkeep : ∀ e ∈ es, ∀ a b, InputCellHolds i v a → perform e a = .next b →
      InputCellHolds i v b := fun e he a b ha hb =>
    let ⟨hreset, hother⟩ := hes e he
    ha.perform_keeps hreset hother hb
  exact (performAll_keeps hkeep (.of_perform_bufWrite hwrite) hu).perform_bufRead

/-! Repeated transactions. -/

/-- The record of what reads returned is in no register. -/
@[simp] theorem readRegister_returnValue (s : State) (v : ReadValue) (r : Nat) :
    readRegister (returnValue v s) r = readRegister s r := by
  unfold readRegister
  rfl

/-- R48: a read leaves the unit as it was and returns the same value again. -/
theorem perform_read_again {e : Event} {s t : State}
    (he : (∃ r, e = .regRead r) ∨ ∃ space i, e = .bufRead space i) (h : perform e s = .next t) :
    ∃ v, t = returnValue v s ∧ perform e t = .next (returnValue v t) := by
  rcases he with ⟨r, rfl⟩ | ⟨space, i, rfl⟩
  · obtain ⟨v, hv, rfl⟩ := perform_regRead_eq_next_iff.mp h
    exact ⟨v, rfl, perform_regRead_eq_next_iff.mpr
      ⟨v, (readRegister_returnValue s v r).trans hv, rfl⟩⟩
  · cases space with
    | ibuf =>
      obtain ⟨hi, b, hb, rfl⟩ := perform_bufRead_ibuf_eq_next_iff.mp h
      exact ⟨.byte b, rfl, perform_bufRead_ibuf_eq_next_iff.mpr ⟨hi, b, hb, rfl⟩⟩
    | obuf =>
      obtain ⟨hi, hlt, b, hb, rfl⟩ := perform_bufRead_obuf_eq_next_iff.mp h
      exact ⟨.byte b, rfl, perform_bufRead_obuf_eq_next_iff.mpr ⟨hi, hlt, b, hb, rfl⟩⟩

/-- Writing a cell twice leaves the second value alone. -/
theorem Memory.write_write (m : Memory) (a : Nat) (v w : Byte) :
    Memory.write (Memory.write m a v) a w = Memory.write m a w := by
  induction m with
  | nil => simp [Memory.write]
  | cons c m ih =>
    obtain ⟨b, x⟩ := c
    by_cases hlt : a < b
    · simp [Memory.write, hlt]
    · by_cases heq : a = b
      · simp [Memory.write, heq]
      · simp [Memory.write, hlt, heq, ih]

theorem writeInput_writeInput (i : Nat) (v : Byte) (s : State) :
    writeInput i v (writeInput i v s) = writeInput i v s := by
  simp only [writeInput, Memory.write_write]

/-- R32, R48: a command repeated writes the same result over itself, since the first run left
everything the result depends on. -/
theorem execute_again {w : Byte} {s t : State} (h : execute w s = .next t) :
    execute w t = .next t := by
  have hframe := execute_frame h
  obtain ⟨u, hu, hobuf, holen, herr⟩ := commandIsStateless w s t hframe.ilen.symm
    (fun k _ => (hframe.input_cells k).symm) (by rw [hframe.params]) t h
  rw [hu, (execute_frame hu).eq_of_output hobuf holen herr]

/-- R48: a register write that completed changes nothing when repeated. -/
theorem perform_regWrite_again {r v : Nat} {s t : State} (h : perform (.regWrite r v) s = .next t) :
    perform (.regWrite r v) t = .next t := by
  match r with
  | 0 =>
    change writeCommand v s = .next t at h
    change writeCommand v t = .next t
    unfold writeCommand at h ⊢
    by_cases hv : v < 256
    · rw [if_pos hv] at h ⊢
      exact execute_again h
    · rw [if_neg hv] at h
      cases h
  | 1 | 3 => rfl
  | 2 =>
    obtain ⟨hv, rfl⟩ := perform_regWrite_ilen_eq_next_iff.mp h
    exact perform_regWrite_ilen_eq_next_iff.mpr ⟨hv, rfl⟩
  | k + 4 => cases h

/-- R48: a cell write that completed changes nothing when repeated. -/
theorem perform_bufWrite_again {space : BufSpace} {i : Nat} {v : Byte} {s t : State}
    (h : perform (.bufWrite space i v) s = .next t) : perform (.bufWrite space i v) t = .next t := by
  cases space with
  | ibuf =>
    obtain ⟨hi, rfl⟩ := perform_bufWrite_ibuf_eq_next_iff.mp h
    exact perform_bufWrite_ibuf_eq_next_iff.mpr ⟨hi, (writeInput_writeInput i v s).symm⟩
  | obuf =>
    obtain ⟨hi, rfl⟩ := perform_bufWrite_obuf_eq_next_iff.mp h
    exact perform_bufWrite_obuf_eq_next_iff.mpr ⟨hi, rfl⟩

/-- Settles O38: by the kind of the repeated event. -/
theorem repeatedTransactions : Obligations.RepeatedTransactions := by
  refine ⟨fun s t e he h => perform_read_again he h, fun s t e he h => ?_⟩
  rcases he with ⟨r, v, rfl⟩ | ⟨space, i, v, rfl⟩ | rfl
  · exact perform_regWrite_again h
  · exact perform_bufWrite_again h
  · obtain rfl := perform_reset_eq_next_iff.mp h
    rfl

/-! What is pending. -/

/-- Settles O46, by induction on the events: a step performs the oldest one and leaves the rest
pending, whatever else is pending after them. -/
theorem pendingRunsInOrder : Obligations.PendingRunsInOrder := by
  intro es rest s hp
  change Sys2Proof.core.run es.length s = performAll es (setPending rest s)
  induction es generalizing s with
  | nil =>
    obtain rfl : s.pending = rest := hp
    rfl
  | cons e es ih =>
    have hstep : step s = mapNext (setPending (es ++ rest)) (perform e s) :=
      (step_cons hp).trans (perform_setPending e s _)
    rw [List.length_cons, performAll, perform_setPending]
    cases he : perform e s with
    | next t =>
      rw [he] at hstep
      rw [run_of_next _ hstep, ih _ rfl]
      rfl
    | fault f =>
      rw [he] at hstep
      exact run_of_fault _ hstep
    | refused r =>
      rw [he] at hstep
      exact run_of_refused _ hstep

end Sys2Proof.Machine

/-! PROOFS about the command word: its fields, and that a word decodes to a command exactly when it is
the command's word. -/

namespace Sys2Proof

/-! The fields of a word. -/

/-- R53: a word is its three fields, from bit 7 down. -/
theorem fields_append (w : Byte) : opcField w ++ rsvField w ++ ordField w = w := by
  have hhigh : opcField w ++ rsvField w = w.extractLsb' 1 7 :=
    BitVec.extractLsb'_append_extractLsb'_eq_extractLsb' rfl
  rw [hhigh]
  exact BitVec.extractLsb'_append_extractLsb'

theorem opcField_toNat (w : Byte) : (opcField w).toNat = w.toNat / 16 := by
  rw [opcField, BitVec.extractLsb'_toNat, Nat.shiftRight_eq_div_pow]
  omega

theorem rsvField_toNat (w : Byte) : (rsvField w).toNat = w.toNat / 2 % 8 := by
  rw [rsvField, BitVec.extractLsb'_toNat, Nat.shiftRight_eq_div_pow]

theorem ordField_toNat (w : Byte) : (ordField w).toNat = w.toNat % 2 := by
  rw [ordField, BitVec.extractLsb'_toNat, Nat.shiftRight_zero]

theorem rsvField_eq_zero_iff {w : Byte} : rsvField w = 0 ↔ w.toNat / 2 % 8 = 0 := by
  rw [← rsvField_toNat, ← BitVec.toNat_inj]
  rfl

theorem opcField_eq_iff {w : Byte} {c : BitVec 4} : opcField w = c ↔ w.toNat / 16 = c.toNat := by
  rw [← opcField_toNat, BitVec.toNat_inj]

/-- R56: the order of a word is that of its parity. -/
theorem orderOfBit_ordField (w : Byte) :
    orderOfBit (ordField w) = if w.toNat % 2 = 0 then .highFirst else .lowFirst := by
  rw [orderOfBit, ← ordField_toNat]
  exact if_congr BitVec.toNat_inj.symm rfl rfl

/-- R58: the mask 0xFE clears the order bit, so it compares the other two fields. -/
theorem and_mask_eq_iff {w : Byte} {c : BitVec 4} :
    w &&& 0xFE = c ++ (0 : BitVec 3) ++ (0 : BitVec 1) ↔ opcField w = c ∧ rsvField w = 0 := by
  have hmask : w &&& 0xFE = opcField w ++ rsvField w ++ (0 : BitVec 1) := by
    conv_lhs => rw [← fields_append w]
    rw [show (0xFE : Byte) = BitVec.allOnes 4 ++ BitVec.allOnes 3 ++ (0 : BitVec 1) from rfl,
      BitVec.and_append, BitVec.and_append, BitVec.and_allOnes, BitVec.and_allOnes]
    simp
  rw [hmask, BitVec.append_left_inj]
  constructor
  · intro h
    refine ⟨?_, ?_⟩
    · simpa only [BitVec.extractLsb'_append_eq_left] using congrArg (BitVec.extractLsb' 3 4) h
    · simpa only [BitVec.extractLsb'_append_eq_right] using congrArg (BitVec.extractLsb' 0 3) h
  · rintro ⟨hopc, hrsv⟩
    rw [hopc, hrsv]

/-! The commands by operation code and order. -/

@[simp] theorem splitOf_opc (o : NybbleOrder) : (splitOf o).opc = opcSplit := by cases o <;> rfl
@[simp] theorem splitOf_order (o : NybbleOrder) : (splitOf o).order = o := by cases o <;> rfl
@[simp] theorem combineOf_opc (o : NybbleOrder) : (combineOf o).opc = opcCombine := by cases o <;> rfl
@[simp] theorem combineOf_order (o : NybbleOrder) : (combineOf o).order = o := by cases o <;> rfl

/-- R54: a command's operation code is one of the two. -/
theorem Instr.opc_eq (i : Instr) : i.opc = opcSplit ∨ i.opc = opcCombine := by
  cases i with
  | splitH | splitL => exact .inl rfl
  | combineH | combineL => exact .inr rfl

@[simp] theorem bitOfOrder_orderOfBit (b : BitVec 1) : bitOfOrder (orderOfBit b) = b := by
  rcases BitVec.eq_zero_or_eq_one b with rfl | rfl <;> rfl

/-! Decoding. -/

/-- R53: a word with the fields of a command is the command's word. -/
theorem encode_eq_of_fields {w : Byte} {i : Instr} (hopc : opcField w = i.opc)
    (hrsv : rsvField w = 0) (hord : orderOfBit (ordField w) = i.order) : encode i = w := by
  rw [encode, ← hopc, ← hrsv, ← hord, bitOfOrder_orderOfBit, fields_append]

/-- R59: the fields of a word that decodes to a command. -/
theorem fields_of_decode_ok {w : Byte} {i : Instr} (h : decode w = .ok i) :
    opcField w = i.opc ∧ rsvField w = 0 ∧ orderOfBit (ordField w) = i.order := by
  unfold decode at h
  split at h
  · cases h
  · rename_i hrsv
    have hrsv := not_not.mp hrsv
    split at h
    · rename_i hopc
      cases h
      simp [hopc, hrsv]
    · split at h
      · rename_i hopc
        cases h
        simp [hopc, hrsv]
      · cases h

/-- R58, R59: a command has exactly one word. -/
theorem decode_eq_ok_iff_encode {w : Byte} {i : Instr} : decode w = .ok i ↔ encode i = w := by
  constructor
  · intro h
    obtain ⟨hopc, hrsv, hord⟩ := fields_of_decode_ok h
    exact encode_eq_of_fields hopc hrsv hord
  · rintro rfl
    exact Machine.decode_encode i

/-- R59, on the fields of the word. -/
theorem decode_eq_ok_iff_fields {w : Byte} {i : Instr} :
    decode w = .ok i ↔
      opcField w = i.opc ∧ rsvField w = 0 ∧ orderOfBit (ordField w) = i.order :=
  ⟨fields_of_decode_ok, fun ⟨hopc, hrsv, hord⟩ =>
    decode_eq_ok_iff_encode.mpr (encode_eq_of_fields hopc hrsv hord)⟩

/-- R59: the decode function is total, and a word is illegal when it decodes to no command. -/
theorem exists_decode_error_iff {w : Byte} : (∃ r, decode w = .error r) ↔ ∀ i, decode w ≠ .ok i := by
  cases decode w <;> simp

theorem exists_decode_splitOf_iff {w : Byte} :
    (∃ o, decode w = .ok (splitOf o)) ↔ opcField w = opcSplit ∧ rsvField w = 0 := by
  simp [decode_eq_ok_iff_fields]

theorem exists_decode_combineOf_iff {w : Byte} :
    (∃ o, decode w = .ok (combineOf o)) ↔ opcField w = opcCombine ∧ rsvField w = 0 := by
  simp [decode_eq_ok_iff_fields]

/-- R60: every word but the four is illegal. -/
theorem exists_decode_error_iff_not_mem {w : Byte} :
    (∃ r, decode w = .error r) ↔ w ∉ [0x10, 0x11, 0x20, 0x21] := by
  have hwords : w ∈ [encode .splitH, encode .splitL, encode .combineH, encode .combineL] ↔
      ∃ i, encode i = w := by
    constructor
    · intro h
      simp only [List.mem_cons, List.not_mem_nil, or_false] at h
      rcases h with rfl | rfl | rfl | rfl <;> exact ⟨_, rfl⟩
    · rintro ⟨i, rfl⟩
      cases i <;> simp
  rw [exists_decode_error_iff, ← not_exists]
  simp only [decode_eq_ok_iff_encode, ← hwords]
  rfl

/-- Settles O1: the four words are those `encode` gives, and each mask and match pair compares the
operation code and the reserved bits. -/
theorem legalWordsDecode : Obligations.LegalWordsDecode :=
  ⟨⟨Machine.decode_encode .splitH, Machine.decode_encode .splitL, Machine.decode_encode .combineH,
      Machine.decode_encode .combineL⟩,
    ⟨rfl, rfl, rfl, rfl⟩,
    fun _ => (and_mask_eq_iff (c := opcSplit)).trans exists_decode_splitOf_iff.symm,
    fun _ => (and_mask_eq_iff (c := opcCombine)).trans exists_decode_combineOf_iff.symm⟩

/-- Settles O2: `decode_eq_ok_iff_fields`, with the fields read as numbers. -/
theorem decodeFollowsFields : Obligations.DecodeFollowsFields := by
  intro w
  dsimp only
  rw [← orderOfBit_ordField]
  refine ⟨fun hrsv => ?_, fun hrsv hopc => ?_, fun hrsv hopc => ?_, fun hsplit hcombine => ?_⟩
  · refine exists_decode_error_iff.mpr fun i hi => hrsv ?_
    obtain ⟨-, hzero, -⟩ := fields_of_decode_ok hi
    exact rsvField_eq_zero_iff.mp hzero
  · exact decode_eq_ok_iff_fields.mpr
      ⟨(opcField_eq_iff.mpr hopc).trans (splitOf_opc _).symm, rsvField_eq_zero_iff.mpr hrsv,
        (splitOf_order _).symm⟩
  · exact decode_eq_ok_iff_fields.mpr
      ⟨(opcField_eq_iff.mpr hopc).trans (combineOf_opc _).symm, rsvField_eq_zero_iff.mpr hrsv,
        (combineOf_order _).symm⟩
  · refine exists_decode_error_iff.mpr fun i hi => ?_
    obtain ⟨hopc, -, -⟩ := fields_of_decode_ok hi
    rcases i.opc_eq with h | h
    · exact hsplit (opcField_eq_iff.mp (hopc.trans h))
    · exact hcombine (opcField_eq_iff.mp (hopc.trans h))

/-- Settles O3: both directions of `decode_eq_ok_iff_encode`. -/
theorem decodeInvertsEncode : Obligations.DecodeInvertsEncode :=
  ⟨fun i _ => Machine.decode_encode i, fun _ _ h => decode_eq_ok_iff_encode.mp h⟩

/-- Settles O4: such a word decodes to no command, and `Fail` empties the output and keeps the
rest. -/
theorem illegalWordFails : Obligations.IllegalWordFails := by
  refine ⟨fun w => exists_decode_error_iff_not_mem, fun w s hw => ?_⟩
  obtain ⟨r, hr⟩ := exists_decode_error_iff_not_mem.mpr hw
  exact ⟨_, Machine.execute_of_decode_error hr s, Machine.failCommand_outputEmpty _ s, rfl,
    Machine.failCommand_frame _ s⟩

end Sys2Proof

/-! PROOFS about the host's script: events performed in order, a sequence written to or read from a
buffer cell by cell, and the statements made of them. -/

namespace Sys2Proof.Machine

/-! Events in order. -/

section
variable {s t : State}

theorem performAll_cons_of_next {e : Event} (es : List Event) (h : perform e s = .next t) :
    performAll (e :: es) s = performAll es t := by
  rw [performAll, h]

theorem performAll_append_of_next {es : List Event} (fs : List Event)
    (h : performAll es s = .next t) : performAll (es ++ fs) s = performAll fs t := by
  rw [performAll_append, h]

@[simp] theorem performAll_singleton (e : Event) (s : State) : performAll [e] s = perform e s := by
  rw [performAll]
  cases perform e s <;> rfl

/-- Where two parts complete, the first does, and the second does after it. -/
theorem performAll_append_eq_next {es fs : List Event} (h : performAll (es ++ fs) s = .next t) :
    ∃ u, performAll es s = .next u ∧ performAll fs u = .next t := by
  rw [performAll_append] at h
  split at h
  · exact ⟨_, ‹_›, h⟩
  · cases h
  · cases h

/-- R124: no event changes the parameters. -/
theorem perform_params {e : Event} (h : perform e s = .next t) : t.params = s.params := by
  rcases perform_next h with rfl | ⟨v, rfl⟩ | ⟨n, -, -, rfl⟩ | ⟨i, v, -, -, rfl⟩ | ⟨-, rfl⟩ |
      ⟨v, -, -, hw⟩
  · rfl
  · rfl
  · rfl
  · rfl
  · rfl
  · exact (execute_frame hw).params

/-- R124: no events change the parameters. -/
theorem performAll_params {es : List Event} (h : performAll es s = .next t) :
    t.params = s.params :=
  performAll_keeps (P := fun u => u.params = s.params)
    (fun _ _ _ _ hu hperform => (perform_params hperform).trans hu) rfl h

end

/-! A sequence written to the input buffer, cell by cell. -/

/-- R5, R18: the cells below a legal input length exist. -/
theorem inputCellExists_of_lt {cap : Capacity} {n i : Nat} (hn : legalLength cap n = true)
    (hi : i < n) : inputCellExists cap i = true := by
  cases cap with
  | bounded cells =>
    rw [legalLength_bounded_iff] at hn
    rw [inputCellExists_bounded_iff]
    omega
  | unbounded => rfl

/-- The memory after element `k` of a sequence has been written to the cell at `base + k`, from the
first element to the last. -/
def Memory.writeFrom (m : Memory) : Nat → List Byte → Memory
  | _, [] => m
  | base, b :: bs => Memory.writeFrom (Memory.write m base b) (base + 1) bs

/-- A cell outside the written range reads as before. -/
theorem Memory.read_writeFrom_of_not_mem {m : Memory} {base a : Nat} {bs : List Byte}
    (h : a < base ∨ base + bs.length ≤ a) :
    Memory.read (Memory.writeFrom m base bs) a = Memory.read m a := by
  induction bs generalizing m base with
  | nil => rfl
  | cons b bs ih =>
    rw [List.length_cons] at h
    rw [Memory.writeFrom, ih (by omega), Memory.read_write, if_neg (by omega)]

/-- Element `k` of the written sequence is in the cell at `base + k`. -/
theorem Memory.read_writeFrom {m : Memory} {base k : Nat} {bs : List Byte} (h : k < bs.length) :
    Memory.read (Memory.writeFrom m base bs) (base + k) = bs[k]? := by
  induction bs generalizing m base k with
  | nil => exact absurd h (Nat.not_lt_zero k)
  | cons b bs ih =>
    rw [Memory.writeFrom]
    cases k with
    | zero =>
      rw [Memory.read_writeFrom_of_not_mem (.inl (by omega)), Memory.read_write,
        if_pos (Nat.add_zero base)]
      rfl
    | succ k =>
      rw [show base + (k + 1) = base + 1 + k by omega, ih (Nat.lt_of_succ_lt_succ h),
        List.getElem?_cons_succ]

/-- The state after a sequence has been written to the input cells from index `i` on. -/
def writeInputFrom (i : Nat) (bs : List Byte) (s : State) : State :=
  { s with ibuf := Memory.writeFrom s.ibuf i bs }

/-- R67: the cell writes of `LOAD` write the sequence. -/
theorem performAll_loadCells {s : State} {i : Nat} {bs : List Byte}
    (hcells : ∀ k < i + bs.length, inputCellExists s.params.cap k = true) :
    performAll (loadCells i bs) s = .next (writeInputFrom i bs s) := by
  induction bs generalizing s i with
  | nil => rfl
  | cons b bs ih =>
    rw [List.length_cons] at hcells
    have hwrite : perform (.bufWrite .ibuf i b) s = .next (writeInput i b s) :=
      perform_bufWrite_ibuf_eq_next_iff.mpr ⟨hcells i (by omega), rfl⟩
    rw [loadCells, performAll_cons_of_next _ hwrite]
    exact ih fun k hk => hcells k (by omega)

/-- R13, R67: a sequence written from cell 0, with its length in `ILEN`, is the input. -/
theorem readInput_of_writeFrom {t : State} {m : Memory} {bs : List Byte}
    (hibuf : t.ibuf = Memory.writeFrom m 0 bs) (hilen : t.ilen = bs.length) :
    readInput t = some bs := by
  refine (readInput_eq_some_iff t bs).mpr ⟨hilen.symm, fun k hk => ?_⟩
  rw [hibuf, ← Memory.read_writeFrom (hilen ▸ hk), Nat.zero_add]

/-- Settles O48: the cell writes of `LOAD`, and then the write of `ILEN`. -/
theorem loadSetsInput : Obligations.LoadSetsInput := by
  refine ⟨fun s bs hlen => ?_, fun s => ?_⟩
  · have hload : performAll (loadCells 0 bs) s = .next (writeInputFrom 0 bs s) :=
      performAll_loadCells fun k hk => inputCellExists_of_lt hlen (by omega)
    refine ⟨setInputLength bs.length (writeInputFrom 0 bs s), ?_,
      readInput_of_writeFrom rfl rfl,
      fun a ha => Memory.read_writeFrom_of_not_mem (.inr (by omega)), rfl⟩
    rw [Statement.perform, Statement.events, performAll_append_of_next _ hload,
      performAll_singleton]
    exact perform_regWrite_ilen_of_legal hlen
  · rw [Statement.perform, Statement.events, performAll_singleton]
    exact perform_regWrite_ilen_of_legal (legalLength_zero _)

/-! A sequence read from the output buffer, cell by cell. -/

/-- The first cell of a range and the rest of it. -/
theorem Memory.readRange_cons_iff {m : Memory} {a : Nat} {b : Byte} {bs : List Byte} :
    Memory.readRange m a (b :: bs).length = some (b :: bs) ↔
      Memory.read m a = some b ∧ Memory.readRange m (a + 1) bs.length = some bs := by
  rw [List.length_cons, Memory.readRange]
  cases Memory.read m a <;> cases Memory.readRange m (a + 1) bs.length <;> simp

/-- The host can read the cells of the output from index `j` on, and they hold `bs`. -/
structure OutputReadsFrom (s : State) (j : Nat) (bs : List Byte) : Prop where
  read_eq : Memory.readRange s.obuf j bs.length = some bs
  visible : j + bs.length ≤ s.olen
  cells_exist : ∀ k < s.olen, outputCellExists s.params.cap k = true

section
variable {s : State} {j : Nat} {b : Byte} {bs : List Byte}

theorem readOutput_length (h : readOutput s = some bs) : bs.length = s.olen :=
  ((Memory.readRange_eq_some_iff _ _ _ _).mp h).1

/-- R20, R42: the whole output, where every cell of it exists. -/
theorem outputReadsFrom_zero (h : readOutput s = some bs)
    (hcells : ∀ k < s.olen, outputCellExists s.params.cap k = true) : OutputReadsFrom s 0 bs := by
  have hlen := readOutput_length h
  exact ⟨hlen ▸ h, by omega, hcells⟩

/-- R42: a read of the first of the cells. -/
theorem OutputReadsFrom.perform_head (h : OutputReadsFrom s j (b :: bs)) :
    perform (.bufRead .obuf j) s = .next (returnValue (.byte b) s) := by
  have hlt : j < s.olen := by
    have := h.visible
    rw [List.length_cons] at this
    omega
  exact perform_bufRead_obuf_eq_next_iff.mpr
    ⟨h.cells_exist j hlt, hlt, b, (Memory.readRange_cons_iff.mp h.read_eq).1, rfl⟩

theorem OutputReadsFrom.tail (h : OutputReadsFrom s j (b :: bs)) : OutputReadsFrom s (j + 1) bs where
  read_eq := (Memory.readRange_cons_iff.mp h.read_eq).2
  visible := by
    have := h.visible
    rw [List.length_cons] at this
    omega
  cells_exist := h.cells_exist

end

/-- The state after reads have returned a sequence of Bytes. -/
def returnBytes (bs : List Byte) (s : State) : State :=
  { s with returned := s.returned ++ bs.map .byte }

theorem returnBytes_cons (b : Byte) (bs : List Byte) (s : State) :
    returnBytes (b :: bs) s = returnBytes bs (returnValue (.byte b) s) := by
  simp [returnBytes, returnValue]

/-- R67: the loop of `READOUT` returns the cells it reads. -/
theorem performAll_readCells {s : State} {j : Nat} {bs : List Byte} (h : OutputReadsFrom s j bs) :
    performAll (readCells j bs.length) s = .next (returnBytes bs s) := by
  induction bs generalizing s j with
  | nil => simp [readCells, performAll, returnBytes]
  | cons b bs ih =>
    have htail := h.tail
    rw [List.length_cons, readCells, performAll_cons_of_next _ h.perform_head, returnBytes_cons]
    exact ih { htail with }

/-- R67: the loop of `MOVE` writes the cells it reads to the input cells of the same indices. -/
theorem performAll_moveCells {s : State} {j : Nat} {bs : List Byte} (h : OutputReadsFrom s j bs)
    (hcells : ∀ k < j + bs.length, inputCellExists s.params.cap k = true) :
    performAll (moveCells s.obuf j bs.length) s = .next (writeInputFrom j bs (returnBytes bs s)) := by
  induction bs generalizing s j with
  | nil => simp [moveCells, performAll, returnBytes, writeInputFrom, Memory.writeFrom]
  | cons b bs ih =>
    rw [List.length_cons] at hcells ⊢
    have htail := h.tail
    have hcell : moveCell s.obuf j = [.bufRead .obuf j, .bufWrite .ibuf j b] := by
      simp only [moveCell, (Memory.readRange_cons_iff.mp h.read_eq).1]
    have hwrite : perform (.bufWrite .ibuf j b) (returnValue (.byte b) s) =
        .next (writeInput j b (returnValue (.byte b) s)) :=
      perform_bufWrite_ibuf_eq_next_iff.mpr ⟨hcells j (by omega), rfl⟩
    rw [moveCells, hcell, List.cons_append, performAll_cons_of_next _ h.perform_head,
      List.cons_append, performAll_cons_of_next _ hwrite, List.nil_append, returnBytes_cons]
    exact ih (s := writeInput j b (returnValue (.byte b) s)) { htail with }
      fun k hk => hcells k (by omega)

/-- R20, R21: in a well-formed state every cell of the output holds a value. -/
theorem UnitInv.exists_readOutput {s : State} (hs : UnitInv s) : ∃ bs, readOutput s = some bs := by
  refine Option.isSome_iff_exists.mp ((Memory.readRange_isSome_iff _ _ _).mpr fun k hk => ?_)
  rw [Nat.zero_add]
  exact hs.read_obuf_isSome_iff.mpr hk

/-! `MOVE`, `READOUT` and `CHECK`. -/

/-- R38: a read of `OLEN`. -/
theorem perform_regRead_olen (s : State) :
    perform (.regRead 3) s = .next (returnValue (.length s.olen) s) := rfl

/-- R67: the state after a `MOVE` of the output `bs`. -/
def moveResult (bs : List Byte) (s : State) : State :=
  setInputLength s.olen (writeInputFrom 0 bs (returnBytes bs (returnValue (.length s.olen) s)))

section
variable {s : State} {bs : List Byte} (hout : readOutput s = some bs)
include hout

/-- R67, R131: `MOVE` of an output that fits. -/
theorem move_perform (hexist : ∀ k < s.olen, outputCellExists s.params.cap k = true)
    (hfits : legalLength s.params.cap s.olen = true) :
    Statement.move.perform s = .next (moveResult bs s) := by
  have hlen := readOutput_length hout
  have hreads := outputReadsFrom_zero hout hexist
  have hloop : performAll (moveCells s.obuf 0 s.olen) (returnValue (.length s.olen) s) =
      .next (writeInputFrom 0 bs (returnBytes bs (returnValue (.length s.olen) s))) :=
    hlen ▸ performAll_moveCells (s := returnValue (.length s.olen) s) { hreads with }
      fun k hk => inputCellExists_of_lt hfits (by omega)
  rw [Statement.perform, Statement.events, List.cons_append,
    performAll_cons_of_next _ (perform_regRead_olen s), performAll_append_of_next _ hloop,
    performAll_singleton]
  exact perform_regWrite_ilen_of_legal hfits

/-- R67: the input after a `MOVE` is the output before it. -/
theorem readInput_moveResult : readInput (moveResult bs s) = some bs :=
  readInput_of_writeFrom rfl (readOutput_length hout).symm

/-- R67: `READOUT` returns `OLEN` and then the output. -/
theorem readout_perform (hexist : ∀ k < s.olen, outputCellExists s.params.cap k = true) :
    Statement.readout.perform s = .next (returnBytes bs (returnValue (.length s.olen) s)) := by
  have hreads := outputReadsFrom_zero hout hexist
  rw [Statement.perform, Statement.events, performAll_cons_of_next _ (perform_regRead_olen s),
    ← readOutput_length hout]
  exact performAll_readCells { hreads with }

end

/-- R28, R131: where `MOVE` completes, its write of `ILEN` does, so the output fits. -/
theorem legalLength_of_move_perform {s t : State} (h : Statement.move.perform s = .next t) :
    legalLength s.params.cap s.olen = true := by
  obtain ⟨u, hloop, hlast⟩ := performAll_append_eq_next h
  rw [performAll_singleton] at hlast
  obtain ⟨hfits, -⟩ := perform_regWrite_ilen_eq_next_iff.mp hlast
  rwa [performAll_params hloop] at hfits

/-- Settles O49: `move_perform`, and the capacity test of the last write. -/
theorem moveCopiesOutput : Obligations.MoveCopiesOutput := by
  refine ⟨fun s hs hfits => ?_, fun s hno t ht => ?_⟩
  · obtain ⟨bs, hout⟩ := hs.exists_readOutput
    exact ⟨moveResult bs s, bs, hout, move_perform hout hs.olen_legal hfits,
      readInput_moveResult hout, rfl, rfl, rfl, rfl⟩
  · have hfits := legalLength_of_move_perform ht
    rw [hno] at hfits
    cases hfits

theorem statusByte_eq_zero_iff {err : BitVec 2} : statusByte err = 0 ↔ err = 0 := by
  rw [← BitVec.toNat_inj, statusByte_toNat, ← BitVec.toNat_inj]
  rfl

/-- R67: `CHECK` returns `STATUS` and goes on exactly where it reads 0x00. -/
theorem runScript_check (rest : List Statement) (s : State) :
    runScript (.check :: rest) s =
      if statusByte s.err = 0 then runScript rest (returnValue (.byte (statusByte s.err)) s)
      else .next (returnValue (.byte (statusByte s.err)) s) := by
  have hcheck : Statement.check.perform s = .next (returnValue (.byte (statusByte s.err)) s) := rfl
  rw [runScript, hcheck]
  exact if_congr decide_eq_true_iff rfl rfl

/-- Settles O50: `readout_perform`, and `STATUS` is 0x00 exactly where `ERR` is 0. -/
theorem readoutAndCheck : Obligations.ReadoutAndCheck := by
  refine ⟨fun s hs => ?_, fun s rest => ⟨fun herr => ?_, fun herr => ?_⟩⟩
  · obtain ⟨bs, hout⟩ := hs.exists_readOutput
    refine ⟨bs, hout, ?_⟩
    rw [readout_perform hout hs.olen_legal]
    simp [returnBytes, returnValue]
  · have hstatus := statusByte_eq_zero_iff.mpr herr
    rw [runScript_check, if_pos hstatus, hstatus]
    rfl
  · have hstatus := mt statusByte_eq_zero_iff.mp herr
    exact ⟨statusByte s.err, hstatus, by rw [runScript_check, if_neg hstatus]; rfl⟩

end Sys2Proof.Machine

/-! PROOFS about the two cells: the values of the halves of a Byte, packing, and packing and extraction
undoing each other. Every fact is reduced to the numbers the Bytes hold. -/

namespace Sys2Proof.Machine

section
variable {p : OorPolicy} {h l b : Byte}

/-! The halves of a Byte. -/

/-- R69: the high half is the quotient by 16. -/
@[simp] theorem hi_toNat (b : Byte) : (hi b).toNat = b.toNat / 16 := by
  have hquot : b.toNat / 16 < 2 ^ 4 := by omega
  calc (hi b).toNat = (b.toNat >>> 4) &&& (2 ^ 4 - 1) := rfl
    _ = b.toNat / 16 % 2 ^ 4 := by rw [Nat.and_two_pow_sub_one_eq_mod, Nat.shiftRight_eq_div_pow]
    _ = b.toNat / 16 := Nat.mod_eq_of_lt hquot

/-- R70: the low half is the remainder by 16. -/
@[simp] theorem lo_toNat (b : Byte) : (lo b).toNat = b.toNat % 16 :=
  Nat.and_two_pow_sub_one_eq_mod b.toNat 4

/-- R73: the high half is in range. -/
theorem hi_le (b : Byte) : (hi b).toNat ≤ 15 := by
  rw [hi_toNat]
  omega

/-- R73: the low half is in range. -/
theorem lo_le (b : Byte) : (lo b).toNat ≤ 15 := by
  rw [lo_toNat]
  omega

/-- R71: equal halves `x` make the Byte `16 * x + x`. -/
theorem hi_eq_lo_iff : hi b = lo b ↔ b.toNat % 17 = 0 := by
  rw [← BitVec.toNat_inj, hi_toNat, lo_toNat]
  omega

/-- R79: a Byte in range is its own low half. -/
theorem lo_eq_self (hl : l.toNat ≤ 15) : lo l = l := by
  rw [← BitVec.toNat_inj, lo_toNat]
  omega

theorem inRange_iff : inRange b = true ↔ b.toNat ≤ 15 := decide_eq_true_iff

/-! Packing operands in range. -/

/-- R72: in range the shift loses no bit and the halves do not overlap, so the or is a sum. -/
theorem packInRange_toNat (hh : h.toNat ≤ 15) (hl : l.toNat ≤ 15) :
    (packInRange h l).toNat = 16 * h.toNat + l.toNat := by
  have hshift : (h <<< 4).toNat = h.toNat <<< 4 := by
    rw [BitVec.toNat_shiftLeft, Nat.shiftLeft_eq]
    omega
  rw [packInRange, BitVec.toNat_or, hshift, ← Nat.shiftLeft_add_eq_or_of_lt (by omega),
    Nat.shiftLeft_eq]
  omega

/-- R76: the high half of a packed Byte. -/
theorem hi_packInRange (hh : h.toNat ≤ 15) (hl : l.toNat ≤ 15) : hi (packInRange h l) = h := by
  rw [← BitVec.toNat_inj, hi_toNat, packInRange_toNat hh hl]
  omega

/-- R76: the low half of a packed Byte. -/
theorem lo_packInRange (hh : h.toNat ≤ 15) (hl : l.toNat ≤ 15) : lo (packInRange h l) = l := by
  rw [← BitVec.toNat_inj, lo_toNat, packInRange_toNat hh hl]
  omega

/-- R75: a Byte is its halves packed. -/
@[simp] theorem packInRange_hi_lo (b : Byte) : packInRange (hi b) (lo b) = b := by
  rw [← BitVec.toNat_inj, packInRange_toNat (hi_le b) (lo_le b), hi_toNat, lo_toNat]
  exact Nat.div_add_mod _ _

/-- R72: the argument order matters, since the operands are the halves of the packed Byte. -/
theorem packInRange_comm_iff (hh : h.toNat ≤ 15) (hl : l.toNat ≤ 15) :
    packInRange h l = packInRange l h ↔ h = l := by
  constructor
  · intro heq
    rw [← hi_packInRange hh hl, heq, hi_packInRange hl hh]
  · rintro rfl
    rfl

/-! The combiner cell under each policy. -/

/-- R74: under `MASK` the low halves of the operands are packed. -/
@[simp] theorem pack_mask (h l : Byte) : pack .mask h l = .ok (packInRange (lo h) (lo l)) := rfl

/-- R72, R74: in range the two policies agree. -/
theorem pack_of_le (hh : h.toNat ≤ 15) (hl : l.toNat ≤ 15) :
    pack p h l = .ok (packInRange h l) := by
  cases p with
  | mask => rw [pack_mask, lo_eq_self hh, lo_eq_self hl]
  | reject =>
    have hrange : (inRange h && inRange l) = true :=
      Bool.and_eq_true_iff.mpr ⟨inRange_iff.mpr hh, inRange_iff.mpr hl⟩
    exact if_pos hrange

/-- R74, R105: under `REJECT` an operand out of range is a fault. -/
theorem pack_reject_of_lt (hout : 15 < h.toNat ∨ 15 < l.toNat) :
    pack .reject h l = .error .invalidNybble := by
  refine if_neg fun hrange => ?_
  rw [Bool.and_eq_true_iff, inRange_iff, inRange_iff] at hrange
  omega

/-! The Byte with its halves exchanged. -/

/-- R78: the high half of the exchanged Byte. -/
@[simp] theorem hi_swap (b : Byte) : hi (swap b) = lo b := hi_packInRange (lo_le b) (hi_le b)

/-- R78: the low half of the exchanged Byte. -/
@[simp] theorem lo_swap (b : Byte) : lo (swap b) = hi b := lo_packInRange (lo_le b) (hi_le b)

/-- R78: `swap` is its own inverse. -/
@[simp] theorem swap_swap (b : Byte) : swap (swap b) = b := by
  rw [swap, hi_swap, lo_swap, packInRange_hi_lo]

/-- R78: packing the halves gives the same Byte in both argument orders when they are equal. -/
theorem swap_eq_self_iff : swap b = b ↔ hi b = lo b := by
  have hcomm := packInRange_comm_iff (lo_le b) (hi_le b)
  rw [packInRange_hi_lo] at hcomm
  exact hcomm.trans eq_comm

end

/-! The statements about the cells. -/

/-- Settles O8: the cell's definitions, and the numbers its two halves hold. -/
theorem splitterCellValues : Obligations.SplitterCellValues :=
  fun b => ⟨rfl, hi_toNat b, rfl, lo_toNat b, rfl, hi_eq_lo_iff⟩

/-- Settles O9: in range both policies give the bare expression. (`packInRange` itself is the model's
name for that expression.) -/
theorem packInRange_spec : Obligations.PackInRange := by
  intro p h l hh hl
  refine ⟨pack_of_le hh hl, packInRange_toNat hh hl, ?_⟩
  rw [pack_of_le hh hl, pack_of_le hl hh, Except.ok.injEq]
  exact packInRange_comm_iff hh hl

/-- Settles O10: each policy's rule on the operands it covers. -/
theorem packOutOfRange : Obligations.PackOutOfRange :=
  ⟨pack_mask, fun _ _ hout => pack_reject_of_lt hout, fun _ _ hh hl => pack_of_le hh hl⟩

/-- Settles O11: in range `pack` is `packInRange`, and under `MASK` it packs the low halves, which are
in range. -/
theorem cellsAreInverse : Obligations.CellsAreInverse := by
  refine ⟨fun p b => ?_, fun p h l x hh hl hx => ?_, fun h l x hx => ?_⟩
  · rw [pack_of_le (hi_le b) (lo_le b), packInRange_hi_lo]
  · rw [pack_of_le hh hl] at hx
    cases hx
    exact ⟨hi_packInRange hh hl, lo_packInRange hh hl⟩
  · rw [pack_mask] at hx
    cases hx
    exact ⟨hi_packInRange (lo_le h) (lo_le l), lo_packInRange (lo_le h) (lo_le l)⟩

/-- Settles O12: the halves are in range, so the exchanged Byte is `pack` of them under both
policies. -/
theorem swapExchangesHalves : Obligations.SwapExchangesHalves := by
  refine fun p b => ⟨pack_of_le (lo_le b) (hi_le b), ?_, swap_swap b, swap_eq_self_iff⟩
  rw [swap, packInRange_toNat (lo_le b) (hi_le b), lo_toNat, hi_toNat]

end Sys2Proof.Machine

/-! PROOFS about the two buffer functions and the commands made of them: the elements of a split, when a
combine succeeds and what it gives, the laws of the two together, and what the four commands leave. -/

namespace Sys2Proof.Machine

/-! The order of a pair, and packing with bits 7:4 cleared. -/

section
variable {p : OorPolicy} {h l v : Byte}

/-- R63, R85: arranging a pair twice in one order gives it back. -/
@[simp] theorem arrange_arrange (o : NybbleOrder) (a b : Byte) :
    arrange o (arrange o a b).1 (arrange o a b).2 = (a, b) := by
  cases o <;> rfl

/-- R74: the high half of a masked pack. -/
@[simp] theorem hi_packMasked (h l : Byte) : hi (packMasked h l) = lo h :=
  hi_packInRange (lo_le h) (lo_le l)

/-- R74: the low half of a masked pack. -/
@[simp] theorem lo_packMasked (h l : Byte) : lo (packMasked h l) = lo l :=
  lo_packInRange (lo_le h) (lo_le l)

/-- R78: exchanging the halves of a packed Byte is packing the other way round. -/
@[simp] theorem swap_packMasked (h l : Byte) : swap (packMasked h l) = packMasked l h := by
  rw [swap, hi_packMasked, lo_packMasked]
  rfl

/-- R72, R79: in range there is nothing to mask. -/
theorem packMasked_of_le (hh : h.toNat ≤ 15) (hl : l.toNat ≤ 15) :
    packMasked h l = packInRange h l :=
  congrArg₂ packInRange (lo_eq_self hh) (lo_eq_self hl)

/-- R72, R74: in range both policies give the masked pack. -/
theorem pack_eq_packMasked (hh : h.toNat ≤ 15) (hl : l.toNat ≤ 15) :
    pack p h l = .ok (packMasked h l) := by
  rw [packMasked_of_le hh hl, pack_of_le hh hl]

/-- R75: a Byte is its halves packed. -/
@[simp] theorem packMasked_hi_lo (b : Byte) : packMasked (hi b) (lo b) = b := by
  rw [packMasked_of_le (hi_le b) (lo_le b), packInRange_hi_lo]

/-- R78: the halves packed the other way round. -/
@[simp] theorem packMasked_lo_hi (b : Byte) : packMasked (lo b) (hi b) = swap b :=
  packMasked_of_le (lo_le b) (hi_le b)

/-- R73: bits 7:4 of a Byte in range are zero. -/
theorem and_highMask_eq_zero (hv : v.toNat ≤ 15) : v &&& 0xF0 = 0 :=
  calc v &&& 0xF0 = v &&& 0xF &&& 0xF0 := congrArg (· &&& 0xF0) (lo_eq_self hv).symm
    _ = v &&& 0 := BitVec.and_assoc v 0xF 0xF0
    _ = 0 := BitVec.and_zero

end

/-! The elements of a split. -/

section
variable {o : NybbleOrder} {B : List Byte} {x : Byte}

/-- R63, R82: the two elements of the first Byte, then those of the rest. -/
theorem split_cons_arrange (o : NybbleOrder) (b : Byte) (bs : List Byte) :
    split o (b :: bs) =
      (arrange o (hi b) (lo b)).1 :: (arrange o (hi b) (lo b)).2 :: split o bs := by
  cases o <;> rfl

/-- R82: element `2 * k` of a split is the first half of Byte `k`. -/
theorem split_getElem?_two_mul (o : NybbleOrder) (B : List Byte) (k : Nat) :
    (split o B)[2 * k]? = B[k]?.map fun b => (arrange o (hi b) (lo b)).1 := by
  induction B generalizing k with
  | nil => rfl
  | cons b bs ih =>
    rw [split_cons_arrange]
    cases k with
    | zero => rfl
    | succ k => exact ih k

/-- R82: element `2 * k + 1` of a split is the second half of Byte `k`. -/
theorem split_getElem?_two_mul_add_one (o : NybbleOrder) (B : List Byte) (k : Nat) :
    (split o B)[2 * k + 1]? = B[k]?.map fun b => (arrange o (hi b) (lo b)).2 := by
  induction B generalizing k with
  | nil => rfl
  | cons b bs ih =>
    rw [split_cons_arrange]
    cases k with
    | zero => rfl
    | succ k => exact ih k

/-- R82: the elements of a split are the halves of the Bytes. -/
theorem mem_split_iff : x ∈ split o B ↔ ∃ b ∈ B, x = hi b ∨ x = lo b := by
  have hpair : ∀ b, (x = (arrange o (hi b) (lo b)).1 ∨ x = (arrange o (hi b) (lo b)).2) ↔
      (x = hi b ∨ x = lo b) := fun b => by
    cases o with
    | highFirst => rfl
    | lowFirst => exact or_comm
  induction B with
  | nil => simp
  | cons b bs ih =>
    rw [split_cons_arrange, List.mem_cons, List.mem_cons, ← or_assoc, List.exists_mem_cons_iff]
    exact or_congr (hpair b) ih

/-- R92: every element of a split is at most 15. -/
theorem split_le (hx : x ∈ split o B) : x.toNat ≤ 15 := by
  obtain ⟨b, -, rfl | rfl⟩ := mem_split_iff.mp hx
  · exact hi_le b
  · exact lo_le b

/-- R95: a split of joined buffers. -/
theorem split_append (o : NybbleOrder) (A B : List Byte) :
    split o (A ++ B) = split o A ++ split o B := by
  induction A with
  | nil => rfl
  | cons a as ih => rw [List.cons_append, split_cons, split_cons, ih, List.append_assoc]

/-- R97: a LowFirst split is the HighFirst split of the exchanged Bytes. -/
theorem split_lowFirst_eq (B : List Byte) : split .lowFirst B = split .highFirst (B.map swap) := by
  induction B with
  | nil => rfl
  | cons b bs ih =>
    rw [List.map_cons, split_cons, split_cons, ih, pair, pair, hi_swap, lo_swap]
    rfl

end

/-! What a combine gives where it succeeds: `combine_eq_ok_iff` ties `packPairs` and `packable` to the
model. -/

/-- R85: the pairs of a buffer packed in the order given, with bits 7:4 of each element cleared. -/
def packPairs (o : NybbleOrder) : List Byte → List Byte
  | a :: b :: rest => packMasked (arrange o a b).1 (arrange o a b).2 :: packPairs o rest
  | _ => []

section
variable {o : NybbleOrder} {D : List Byte}

/-- A pair in front leaves an even length even and an odd length odd. -/
theorem length_cons_cons_mod_two (a b : Byte) (rest : List Byte) :
    (a :: b :: rest).length % 2 = rest.length % 2 := Nat.add_mod_right rest.length 2

@[simp] theorem packPairs_nil (o : NybbleOrder) : packPairs o [] = [] := rfl

@[simp] theorem packPairs_cons_cons (o : NybbleOrder) (a b : Byte) (rest : List Byte) :
    packPairs o (a :: b :: rest) =
      packMasked (arrange o a b).1 (arrange o a b).2 :: packPairs o rest := rfl

/-- R85: element `k` is pair `k` packed. -/
theorem packPairs_getElem? {k : Nat} {a b : Byte} (ha : D[2 * k]? = some a)
    (hb : D[2 * k + 1]? = some b) :
    (packPairs o D)[k]? = some (packMasked (arrange o a b).1 (arrange o a b).2) := by
  induction D using List.twoStepInduction generalizing k with
  | nil => cases ha
  | singleton x => cases hb
  | cons_cons x y rest ih _ =>
    cases k with
    | zero => cases ha; cases hb; rfl
    | succ k => exact ih ha hb

/-- R95: packed pairs of joined buffers, where the first ends with a whole pair. -/
theorem packPairs_append (E : List Byte) (heven : D.length % 2 = 0) :
    packPairs o (D ++ E) = packPairs o D ++ packPairs o E := by
  induction D using List.twoStepInduction with
  | nil => rfl
  | singleton x => cases heven
  | cons_cons x y rest ih _ =>
    rw [length_cons_cons_mod_two] at heven
    rw [List.cons_append, List.cons_append, packPairs_cons_cons, packPairs_cons_cons, ih heven,
      List.cons_append]

/-- R94: a split of packed pairs is the elements with bits 7:4 cleared. -/
theorem split_packPairs (heven : D.length % 2 = 0) : split o (packPairs o D) = D.map lo := by
  induction D using List.twoStepInduction with
  | nil => rfl
  | singleton x => cases heven
  | cons_cons x y rest ih _ =>
    rw [length_cons_cons_mod_two] at heven
    rw [packPairs_cons_cons, split_cons_arrange, hi_packMasked, lo_packMasked, ih heven]
    cases o <;> rfl

/-- R90: the pairs of a split, packed in the order of the split, are the Bytes. -/
@[simp] theorem packPairs_split (o : NybbleOrder) (B : List Byte) : packPairs o (split o B) = B := by
  induction B with
  | nil => rfl
  | cons b bs ih =>
    rw [split_cons_arrange, packPairs_cons_cons, arrange_arrange, packMasked_hi_lo, ih]

/-- R97: pairs packed LowFirst are the pairs packed HighFirst with the halves exchanged. -/
theorem packPairs_lowFirst_eq (D : List Byte) :
    packPairs .lowFirst D = (packPairs .highFirst D).map swap := by
  induction D using List.twoStepInduction with
  | nil => rfl
  | singleton x => rfl
  | cons_cons x y rest ih _ =>
    rw [packPairs_cons_cons, packPairs_cons_cons, List.map_cons, swap_packMasked, ih]
    rfl

/-- A buffer in range is its own low halves. -/
theorem map_lo_eq_self (hD : ∀ v ∈ D, v.toNat ≤ 15) : D.map lo = D :=
  (List.map_congr_left fun v hv => lo_eq_self (hD v hv)).trans (List.map_id D)

/-- Exchanging twice gives the buffer back. -/
@[simp] theorem map_swap_map_swap (B : List Byte) : (B.map swap).map swap = B := by
  rw [List.map_map, show swap ∘ swap = id from funext swap_swap, List.map_id]

end

/-- R74, R85: every pair of the buffer packs under the policy. -/
def packable (p : OorPolicy) (d : List Byte) : Prop := p = .mask ∨ ∀ v ∈ d, v.toNat ≤ 15

section
variable {p : OorPolicy} {o : NybbleOrder} {a b : Byte} {d : List Byte}

theorem packable_append_iff {e : List Byte} :
    packable p (d ++ e) ↔ packable p d ∧ packable p e := by
  rw [packable, packable, packable, List.forall_mem_append, or_and_left]

theorem not_packable_iff : ¬ packable p d ↔ p = .reject ∧ ∃ v ∈ d, 15 < v.toNat := by
  cases p <;> simp [packable]

/-- R92: a split packs under both policies. -/
theorem packable_split (p : OorPolicy) (o : NybbleOrder) (B : List Byte) : packable p (split o B) :=
  .inr fun _ => split_le

theorem pack_of_packable (h : packable p [a, b]) :
    pack p (arrange o a b).1 (arrange o a b).2 =
      .ok (packMasked (arrange o a b).1 (arrange o a b).2) := by
  rcases h with rfl | h
  · rfl
  · have ha : a.toNat ≤ 15 := h a (by simp)
    have hb : b.toNat ≤ 15 := h b (by simp)
    cases o with
    | highFirst => exact pack_eq_packMasked ha hb
    | lowFirst => exact pack_eq_packMasked hb ha

theorem pack_of_not_packable (h : ¬ packable p [a, b]) :
    pack p (arrange o a b).1 (arrange o a b).2 = .error .invalidNybble := by
  obtain ⟨rfl, v, hv, hout⟩ := not_packable_iff.mp h
  have hab : 15 < a.toNat ∨ 15 < b.toNat := by
    rcases List.mem_pair.mp hv with rfl | rfl
    · exact .inl hout
    · exact .inr hout
  cases o with
  | highFirst => exact pack_reject_of_lt hab
  | lowFirst => exact pack_reject_of_lt hab.symm

theorem combinePairs_of_packable (h : packable p d) :
    combinePairs p o d = .ok (packPairs o d) := by
  induction d using List.twoStepInduction with
  | nil => rfl
  | singleton x => rfl
  | cons_cons x y rest ih _ =>
    obtain ⟨hxy, hrest⟩ := packable_append_iff (d := [x, y]) (e := rest).mp h
    rw [combinePairs_cons, pack_of_packable hxy, ih hrest, packPairs_cons_cons]

/-- R85: the first pair that does not pack decides, and there is one. -/
theorem combinePairs_of_not_packable (heven : d.length % 2 = 0) (h : ¬ packable p d) :
    combinePairs p o d = .error .invalidNybble := by
  induction d using List.twoStepInduction with
  | nil => exact absurd (.inr nofun) h
  | singleton x => cases heven
  | cons_cons x y rest ih _ =>
    rw [length_cons_cons_mod_two] at heven
    rw [combinePairs_cons]
    by_cases hxy : packable p [x, y]
    · have hrest : ¬ packable p rest := fun hr => h (packable_append_iff.mpr ⟨hxy, hr⟩)
      rw [pack_of_packable hxy, ih heven hrest]
    · rw [pack_of_not_packable hxy]

theorem combine_of_packable (heven : d.length % 2 = 0) (h : packable p d) :
    combine p o d = .ok (packPairs o d) := by
  rw [combine_even p o (by omega), combinePairs_of_packable h]

theorem combine_of_not_packable (heven : d.length % 2 = 0) (h : ¬ packable p d) :
    combine p o d = .error .invalidNybble := by
  rw [combine_even p o (by omega), combinePairs_of_not_packable heven h]

/-- R85: when a combine succeeds, and with what. -/
theorem combine_eq_ok_iff {R : List Byte} :
    combine p o d = .ok R ↔ d.length % 2 = 0 ∧ packable p d ∧ packPairs o d = R := by
  rcases Nat.mod_two_eq_zero_or_one d.length with heven | hodd
  · by_cases h : packable p d
    · simp [combine_of_packable heven h, heven, h]
    · simp [combine_of_not_packable heven h, h]
  · simp [combine_odd p o hodd, hodd]

/-- R85: when a combine fails, and with which fault; the order plays no part. -/
theorem combine_eq_error_iff {e : CommandFault} :
    combine p o d = .error e ↔ (d.length % 2 = 1 ∧ e = .invalidLength) ∨
      (d.length % 2 = 0 ∧ ¬ packable p d ∧ e = .invalidNybble) := by
  rcases Nat.mod_two_eq_zero_or_one d.length with heven | hodd
  · by_cases h : packable p d
    · simp [combine_of_packable heven h, heven, h]
    · simp [combine_of_not_packable heven h, heven, h, eq_comm]
  · simp [combine_odd p o hodd, hodd, eq_comm]

/-- R89: packed pairs of a whole number of pairs halve the length. -/
theorem two_mul_packPairs_length (heven : d.length % 2 = 0) :
    2 * (packPairs o d).length = d.length := by
  have hlen := congrArg List.length (split_packPairs (o := o) heven)
  rwa [split_length, List.length_map] at hlen

/-- R90: a combine of a split in the same order. -/
theorem combine_split (p : OorPolicy) (o : NybbleOrder) (B : List Byte) :
    combine p o (split o B) = .ok B :=
  combine_eq_ok_iff.mpr ⟨by rw [split_length]; omega, packable_split p o B, packPairs_split o B⟩

end

/-! The statements about the functions. -/

/-- Settles O13: the order arranges the two halves of each Byte. -/
theorem splitElements : Obligations.SplitElements := by
  refine fun o B => ⟨split_length o B, fun k b hb => ?_⟩
  rw [split_getElem?_two_mul, split_getElem?_two_mul_add_one, hb]
  cases o with
  | highFirst => exact ⟨rfl, rfl⟩
  | lowFirst => exact ⟨rfl, rfl⟩

/-- Settles O14: an element of a split is a half of a Byte. -/
theorem splitOutputInRange : Obligations.SplitOutputInRange :=
  ⟨fun b => ⟨hi_le b, lo_le b⟩, fun _ _ _ hx =>
    have hle := split_le hx
    ⟨hle, and_highMask_eq_zero hle, inRange_iff.mpr hle⟩⟩

/-- Settles O15: the outcome is decided by the length and by `packable`, and a result is
`packPairs`. -/
theorem combineOutcome : Obligations.CombineOutcome := by
  refine fun p o D => ⟨combine_odd p o, fun heven hp hout => ?_, fun heven hpack => ?_⟩
  · exact combine_of_not_packable heven (not_packable_iff.mpr ⟨hp, hout⟩)
  · refine ⟨packPairs o D, combine_of_packable heven hpack, two_mul_packPairs_length heven,
      fun k a b ha hb => ⟨_, packPairs_getElem? ha hb, ?_⟩⟩
    have hab : packable p [a, b] := hpack.imp_right fun hD => by
      simpa using And.intro (hD a (List.mem_of_getElem? ha)) (hD b (List.mem_of_getElem? hb))
    rw [← pack_of_packable hab]
    cases o with
    | highFirst => rfl
    | lowFirst => rfl

/-- Settles O16: `combine_odd`, and the length of the packed pairs. -/
theorem combineLength : Obligations.CombineLength := by
  refine fun p o D => ⟨combine_odd p o, fun R hR => ?_⟩
  obtain ⟨heven, -, rfl⟩ := combine_eq_ok_iff.mp hR
  have hlen := two_mul_packPairs_length (o := o) heven
  exact ⟨heven, by omega⟩

/-- R93: a combine of a split in the other order exchanges the halves of every Byte. -/
theorem combine_split_other (p : OorPolicy) (B : List Byte) :
    combine p .lowFirst (split .highFirst B) = .ok (B.map swap) ∧
      combine p .highFirst (split .lowFirst B) = .ok (B.map swap) := by
  constructor
  · rw [← combine_split p .lowFirst, split_lowFirst_eq, map_swap_map_swap]
  · rw [split_lowFirst_eq, combine_split]

/-- R93: some Byte differs from its exchange exactly when its halves differ. -/
theorem map_swap_ne_self_iff {B : List Byte} : B.map swap ≠ B ↔ ∃ b ∈ B, hi b ≠ lo b := by
  have heq : B.map swap = B ↔ ∀ b ∈ B, hi b = lo b := by
    induction B with
    | nil => simp
    | cons b bs ih => rw [List.map_cons, List.cons.injEq, swap_eq_self_iff, ih, List.forall_mem_cons]
  rw [ne_eq, heq]
  push Not
  rfl

/-- Settles O18: a LowFirst split is the HighFirst split of the exchanged Bytes, and exchanging twice
changes nothing. -/
theorem orderMismatch : Obligations.OrderMismatch := fun p B =>
  ⟨(combine_split_other p B).1, (combine_split_other p B).2, map_swap_ne_self_iff⟩

/-- Settles O19: the split of the packed pairs is the low halves, which in range are the elements. -/
theorem splitAfterCombine : Obligations.SplitAfterCombine := by
  refine ⟨fun p o D heven hD => ?_, fun o D heven => ?_⟩
  · exact ⟨_, combine_of_packable heven (.inr hD), (split_packPairs heven).trans (map_lo_eq_self hD)⟩
  · exact ⟨_, combine_of_packable heven (.inl rfl), split_packPairs heven⟩

/-- Settles O20: an element above 15 of a chunk is one of the joined buffer. -/
theorem chunksJoin : Obligations.ChunksJoin := by
  refine ⟨split_append, fun p o D E hD hE => ?_⟩
  have hjoin : (D ++ E).length % 2 = 0 := by
    rw [List.length_append]
    omega
  refine ⟨fun R T hR hT => ?_, fun e he => ?_⟩
  · obtain ⟨-, hpD, rfl⟩ := combine_eq_ok_iff.mp hR
    obtain ⟨-, hpE, rfl⟩ := combine_eq_ok_iff.mp hT
    exact combine_eq_ok_iff.mpr ⟨hjoin, packable_append_iff.mpr ⟨hpD, hpE⟩, packPairs_append E hD⟩
  · rw [combine_eq_error_iff, combine_eq_error_iff] at he
    rw [combine_eq_error_iff, packable_append_iff]
    refine .inr ?_
    rcases he with (⟨hodd, -⟩ | ⟨-, hp, rfl⟩) | (⟨hodd, -⟩ | ⟨-, hp, rfl⟩)
    · omega
    · exact ⟨hjoin, fun h => hp h.1, rfl⟩
    · omega
    · exact ⟨hjoin, fun h => hp h.2, rfl⟩

/-- R94: a split undoes a combine that succeeds on an in-range buffer. -/
theorem split_of_combine_eq_ok {p : OorPolicy} {o : NybbleOrder} {D R : List Byte}
    (hD : ∀ v ∈ D, v.toNat ≤ 15) (hR : combine p o D = .ok R) : split o R = D := by
  obtain ⟨heven, -, rfl⟩ := combine_eq_ok_iff.mp hR
  rw [split_packPairs heven, map_lo_eq_self hD]

/-- Settles O21: each of the two functions is undone by the other. -/
theorem oneToOne : Obligations.OneToOne := by
  refine ⟨fun o A B hAB => ?_, fun p o D E R hD hE hRD hRE => ?_, fun p o B => ?_, by decide⟩
  · rw [← packPairs_split o A, hAB, packPairs_split]
  · have hsplit := split_of_combine_eq_ok hD hRD
    exact ⟨hsplit.symm.trans (split_of_combine_eq_ok hE hRE), hsplit⟩
  · exact ⟨by rw [split_length]; omega, fun _ => split_le, combine_split p o B⟩

/-- Settles O22: the order decides only which element of a pair is the high half; whether a combine
fails depends on the length and on `packable`. -/
theorem ordersCompared : Obligations.OrdersCompared := by
  refine ⟨fun B => ⟨split_lowFirst_eq B, fun k => ?_⟩, fun p D R hR => ?_, fun p D e => ?_⟩
  · simp only [split_getElem?_two_mul, split_getElem?_two_mul_add_one]
    exact ⟨rfl, rfl⟩
  · obtain ⟨heven, hpack, rfl⟩ := combine_eq_ok_iff.mp hR
    exact combine_eq_ok_iff.mpr ⟨heven, hpack, packPairs_lowFirst_eq D⟩
  · rw [combine_eq_error_iff, combine_eq_error_iff]

/-! The commands. -/

section
variable {s : State} {o : NybbleOrder} {d : List Byte}

/-- R13, R18: element `k` of the input is the cell at index `k`. -/
theorem getElem?_of_read_ibuf {k : Nat} {b : Byte} (hd : readInput s = some d) (hk : k < s.ilen)
    (hb : Memory.read s.ibuf k = some b) : d[k]? = some b :=
  (((readInput_eq_some_iff s d).mp hd).2 k hk).symm.trans hb

/-- R43, R122: no cell from the length of a result on holds a value. -/
theorem Memory.read_ofBytes_eq_none {result : List Byte} {j : Nat} (hj : result.length ≤ j) :
    Memory.read (Memory.ofBytes result) j = none := by
  rw [Memory.read_ofBytes, List.getElem?_eq_none hj]

/-- R79: the input is in range exactly when every element of it is. -/
theorem inputInRange_iff (hd : readInput s = some d) :
    inputInRange s ↔ ∀ v ∈ d, v.toNat ≤ 15 := by
  obtain ⟨hlen, hcells⟩ := (readInput_eq_some_iff s d).mp hd
  constructor
  · intro h v hv
    obtain ⟨k, hk⟩ := List.mem_iff_getElem?.mp hv
    have hlt : k < s.ilen := hlen ▸ (List.getElem?_eq_some_iff.mp hk).1
    exact h k hlt v ((hcells k hlt).trans hk)
  · intro h k hk b hb
    exact h b (List.mem_of_getElem? (getElem?_of_read_ibuf hd hk hb))

/-- R82: a split of a loaded input, in either order. -/
theorem exec_splitOf_result (o : NybbleOrder) (hloaded : inputLoaded s) :
    ∃ t, exec (splitOf o) s = .next t ∧ t.olen = 2 * s.ilen ∧ t.err = 0 ∧ CommandFrame s t ∧
      (∀ k < s.ilen, ∀ b : Byte, Memory.read s.ibuf k = some b →
        Memory.read t.obuf (2 * k) = some (arrange o (hi b) (lo b)).1 ∧
        Memory.read t.obuf (2 * k + 1) = some (arrange o (hi b) (lo b)).2) ∧
      (∀ j, 2 * s.ilen ≤ j → Memory.read t.obuf j = none) := by
  obtain ⟨d, hd⟩ := inputLoaded_iff_readInput.mp hloaded
  have hlen : (split o d).length = 2 * s.ilen := by
    rw [split_length, ((readInput_eq_some_iff s d).mp hd).1]
  refine ⟨_, exec_splitOf_of_readInput o hd, hlen, rfl, succeedCommand_frame _ s,
    fun k hk b hb => ?_, fun j hj => Memory.read_ofBytes_eq_none (hlen ▸ hj)⟩
  rw [succeedCommand_obuf, Memory.read_ofBytes, Memory.read_ofBytes, split_getElem?_two_mul,
    split_getElem?_two_mul_add_one, getElem?_of_read_ibuf hd hk hb]
  exact ⟨rfl, rfl⟩

/-- R85: a combine of a loaded input of even length that packs, in either order. -/
theorem exec_combineOf_result (o : NybbleOrder) (heven : s.ilen % 2 = 0) (hloaded : inputLoaded s)
    (hpack : s.params.oorPolicy = .mask ∨ inputInRange s) :
    ∃ t, exec (combineOf o) s = .next t ∧ t.olen = s.ilen / 2 ∧ t.err = 0 ∧ CommandFrame s t ∧
      (∀ k < s.ilen / 2, ∀ a b : Byte, Memory.read s.ibuf (2 * k) = some a →
        Memory.read s.ibuf (2 * k + 1) = some b →
        Memory.read t.obuf k = some (packMasked (arrange o a b).1 (arrange o a b).2)) ∧
      (∀ j, s.ilen / 2 ≤ j → Memory.read t.obuf j = none) := by
  obtain ⟨d, hd⟩ := inputLoaded_iff_readInput.mp hloaded
  rw [inputInRange_iff hd] at hpack
  have hlen : (packPairs o d).length = s.ilen / 2 := by
    have hdlen := ((readInput_eq_some_iff s d).mp hd).1
    have hhalf := two_mul_packPairs_length (o := o) (hdlen ▸ heven)
    omega
  refine ⟨_, exec_combineOf_of_ok (by omega) hd (combinePairs_of_packable hpack), hlen, rfl,
    succeedCommand_frame _ s, fun k hk a b ha hb => ?_,
    fun j hj => Memory.read_ofBytes_eq_none (hlen ▸ hj)⟩
  rw [succeedCommand_obuf, Memory.read_ofBytes]
  exact packPairs_getElem? (getElem?_of_read_ibuf hd (by omega) ha)
    (getElem?_of_read_ibuf hd (by omega) hb)

/-- R107: a command that fails leaves an empty output and the fault's code. -/
theorem fails_of_eq_failCommand {i : Instr} {e : CommandFault}
    (h : exec i s = .next (failCommand e s)) :
    ∃ t, exec i s = .next t ∧ outputEmpty t ∧ t.err = e.code ∧ CommandFrame s t :=
  ⟨_, h, failCommand_outputEmpty e s, rfl, failCommand_frame e s⟩

/-- R103: a combine of odd length, in either order. -/
theorem exec_combineOf_odd_fails (o : NybbleOrder) (hodd : s.ilen % 2 = 1) :
    ∃ t, exec (combineOf o) s = .next t ∧ outputEmpty t ∧ t.err = 1 ∧ CommandFrame s t :=
  fails_of_eq_failCommand (exec_combineOf_of_odd o hodd)

/-- R105: under `REJECT`, a combine of a loaded input of even length with an element above 15, in
either order. -/
theorem exec_combineOf_reject_fails (o : NybbleOrder) (heven : s.ilen % 2 = 0)
    (hloaded : inputLoaded s) (hreject : s.params.oorPolicy = .reject) (hout : ¬ inputInRange s) :
    ∃ t, exec (combineOf o) s = .next t ∧ outputEmpty t ∧ t.err = 3 ∧ CommandFrame s t := by
  obtain ⟨d, hd⟩ := inputLoaded_iff_readInput.mp hloaded
  have hdlen := ((readInput_eq_some_iff s d).mp hd).1
  have hpack : ¬ packable s.params.oorPolicy d := by
    rw [packable, hreject, ← inputInRange_iff hd]
    simpa using hout
  exact fails_of_eq_failCommand (exec_combineOf_of_error (by omega) hd
    (combinePairs_of_not_packable (hdlen ▸ heven) hpack))

end

/-- Settles O23: `exec_splitOf_result` in the order HighFirst. -/
theorem splitHighResult : Obligations.SplitHighResult :=
  ⟨by decide, fun _ => exec_splitOf_result .highFirst⟩

/-- Settles O24: `exec_splitOf_result` in the order LowFirst. -/
theorem splitLowResult : Obligations.SplitLowResult :=
  ⟨by decide, fun _ => exec_splitOf_result .lowFirst⟩

/-- Settles O25: the three outcomes of a combine, in the order HighFirst. -/
theorem combineHighResult : Obligations.CombineHighResult :=
  ⟨by decide, fun _ => ⟨exec_combineOf_result .highFirst, exec_combineOf_odd_fails .highFirst,
    exec_combineOf_reject_fails .highFirst⟩⟩

/-- Settles O26: the three outcomes of a combine, in the order LowFirst. -/
theorem combineLowResult : Obligations.CombineLowResult :=
  ⟨by decide, fun _ => ⟨exec_combineOf_result .lowFirst, exec_combineOf_odd_fails .lowFirst,
    exec_combineOf_reject_fails .lowFirst⟩⟩

/-- Settles O28: a command ends with `Succeed` or with `Fail`, and both write only `OBUF`, `OLEN` and
`STATUS.ERR`. -/
theorem commandKeepsInput : Obligations.CommandKeepsInput := fun _ _ _ h => execute_frame h

/-- R91: every command on an empty input succeeds with the empty result. -/
theorem exec_of_ilen_eq_zero {s : State} (i : Instr) (h : s.ilen = 0) :
    exec i s = .next (succeedCommand [] s) := by
  have hin : readInput s = some [] := (readInput_eq_some_iff s []).mpr ⟨h.symm, by omega⟩
  have hsplit : ∀ o, exec (splitOf o) s = .next (succeedCommand [] s) :=
    fun o => exec_splitOf_of_readInput o hin
  have hcombine : ∀ o, exec (combineOf o) s = .next (succeedCommand [] s) :=
    fun o => exec_combineOf_of_ok (by omega) hin (combinePairs_nil _ o)
  cases i with
  | splitH => exact hsplit .highFirst
  | splitL => exact hsplit .lowFirst
  | combineH => exact hcombine .highFirst
  | combineL => exact hcombine .lowFirst

/-- Settles O17: the empty buffer is its own split, so it combines to itself; on the unit it is the input
where `ILEN` is 0. -/
theorem emptyBuffer : Obligations.EmptyBuffer :=
  ⟨fun p o => ⟨split_nil o, combine_split p o []⟩, fun i s h =>
    ⟨_, exec_of_ilen_eq_zero i h, ⟨rfl, Memory.read_nil⟩, rfl, succeedCommand_frame [] s⟩⟩

/-! The round trip on the unit. -/

/-- R57, R66: the statement of a command executes it. -/
theorem command_perform (i : Instr) (s : State) : (Statement.command i).perform s = exec i s := by
  rw [Statement.perform, Statement.events, performAll_singleton, perform_regWrite_cmd,
    execute_of_decode_ok (decode_encode i)]

/-- R66: a script goes on after a statement that completes and does not end it. -/
theorem runScript_cons_of_next {st : Statement} {s t : State} (rest : List Statement)
    (h : st.perform s = .next t) (hgoes : st.goesOn t = true) :
    runScript (st :: rest) s = runScript rest t := by
  rw [runScript, h]
  exact if_pos hgoes

/-- R81: a result that succeeds is the output. -/
theorem readOutput_succeedCommand (result : List Byte) (s : State) :
    readOutput (succeedCommand result s) = some result := Memory.readRange_ofBytes result

/-- R67: a `MOVE` after a command that succeeds makes the result the input, where it fits. -/
theorem move_perform_succeedCommand {result : List Byte} {s : State}
    (hfits : legalLength s.params.cap result.length = true) :
    ∃ t, Statement.move.perform (succeedCommand result s) = .next t ∧ readInput t = some result := by
  have hout := readOutput_succeedCommand result s
  have hexist : ∀ k < result.length, outputCellExists s.params.cap k = true :=
    fun k hk => outputCellExists_of_lt_two_mul hfits (by omega)
  exact ⟨_, move_perform hout hexist hfits, readInput_moveResult hout⟩

/-- R90: a combine of an expanded input gives the Bytes back. -/
theorem exec_combineOf_of_split {o : NybbleOrder} {B : List Byte} {s : State}
    (h : readInput s = some (split o B)) :
    exec (combineOf o) s = .next (succeedCommand B s) := by
  have hlen := ((readInput_eq_some_iff s _).mp h).1
  rw [split_length] at hlen
  refine exec_combineOf_of_ok (by omega) h ?_
  rw [combinePairs_of_packable (packable_split _ o B), packPairs_split]

/-- Settles O51: after `SPLIT` the output is the expanded form, `MOVE` makes it the input, and
`COMBINE` gives the Bytes back. -/
theorem roundTrip : Obligations.RoundTrip := by
  refine ⟨combine_split, fun o s B hB hfits => ?_⟩
  have hlen : B.length = s.ilen := ((readInput_eq_some_iff s B).mp hB).1
  have hsplit := (command_perform _ s).trans (exec_splitOf_of_readInput o hB)
  have hsplitFits : legalLength s.params.cap (split o B).length = true := by
    rwa [split_length, hlen]
  obtain ⟨t, hmove, hin⟩ := move_perform_succeedCommand hsplitFits
  have hcombine := (command_perform _ t).trans (exec_combineOf_of_split hin)
  refine ⟨succeedCommand B t, ?_, readOutput_succeedCommand B t, hlen, rfl⟩
  rw [runScript_cons_of_next _ hsplit rfl, runScript_cons_of_next _ hmove rfl,
    runScript_cons_of_next _ hcombine rfl, runScript]

end Sys2Proof.Machine

/-! PROOFS about which fault code a command leaves, and about several units: what decides each code, and
that a step of one unit is no step of another. -/

namespace Sys2Proof

/-! Splits and combines. -/

/-- R58: every command is a split or a combine of some order. -/
theorem Instr.eq_splitOf_or_combineOf (i : Instr) : (∃ o, i = splitOf o) ∨ ∃ o, i = combineOf o := by
  cases i with
  | splitH => exact .inl ⟨.highFirst, rfl⟩
  | splitL => exact .inl ⟨.lowFirst, rfl⟩
  | combineH => exact .inr ⟨.highFirst, rfl⟩
  | combineL => exact .inr ⟨.lowFirst, rfl⟩

/-- R58: the words of the two combines. -/
theorem mem_combineWords_iff {w : Byte} : w ∈ [0x20, 0x21] ↔ ∃ o, decode w = .ok (combineOf o) := by
  simp only [decode_eq_ok_iff_encode]
  constructor
  · intro hw
    rcases List.mem_pair.mp hw with rfl | rfl
    · exact ⟨.highFirst, by decide⟩
    · exact ⟨.lowFirst, by decide⟩
  · rintro ⟨o, rfl⟩
    cases o <;> decide

theorem splitOf_ne_combineOf (o o' : NybbleOrder) : splitOf o ≠ combineOf o' := by
  cases o <;> cases o' <;> decide

end Sys2Proof

namespace Sys2Proof.Machine

/-! The code a command leaves. -/

section
variable {s t : State} {o : NybbleOrder}

/-- R82: a split has no failure condition. -/
theorem exec_splitOf_err (h : exec (splitOf o) s = .next t) : t.err = 0 := by
  rw [exec_splitOf] at h
  obtain ⟨bs, -, rfl⟩ := splitInput_next h
  rfl

/-- R85, R103, R105, R108: what decides the code a combine leaves; the length is tested first. -/
theorem exec_combineOf_err (h : exec (combineOf o) s = .next t) :
    (s.ilen % 2 = 1 ∧ t.err = 1) ∨
      (s.ilen % 2 = 0 ∧ (s.params.oorPolicy = .reject ∧ ¬ inputInRange s) ∧ t.err = 3) ∨
      (s.ilen % 2 = 0 ∧ ¬ (s.params.oorPolicy = .reject ∧ ¬ inputInRange s) ∧ t.err = 0) := by
  rcases Nat.mod_two_eq_zero_or_one s.ilen with heven | hodd
  · have hloaded : inputLoaded s := (exec_combineOf_completes_iff.mp ⟨t, h⟩).resolve_left (by omega)
    by_cases hout : s.params.oorPolicy = .reject ∧ ¬ inputInRange s
    · obtain ⟨_, ht, -, herr, -⟩ := exec_combineOf_reject_fails o heven hloaded hout.1 hout.2
      cases h.symm.trans ht
      exact .inr (.inl ⟨heven, hout, herr⟩)
    · have hpack : s.params.oorPolicy = .mask ∨ inputInRange s := by
        cases hpolicy : s.params.oorPolicy with
        | mask => exact .inl rfl
        | reject => exact .inr (by_contra fun hn => hout ⟨hpolicy, hn⟩)
      obtain ⟨_, ht, -, herr, -⟩ := exec_combineOf_result o heven hloaded hpack
      cases h.symm.trans ht
      exact .inr (.inr ⟨heven, hout, herr⟩)
  · obtain ⟨_, ht, -, herr, -⟩ := exec_combineOf_odd_fails o hodd
    cases h.symm.trans ht
    exact .inl ⟨hodd, herr⟩

end

/-- Settles O27: an illegal word leaves 2, a split 0, and a combine what `exec_combineOf_err` says. -/
theorem faultCodeCauses : Obligations.FaultCodeCauses := by
  intro w s t h
  rw [← exists_decode_error_iff_not_mem, mem_combineWords_iff]
  rcases execute_next h with ⟨i, hi, hexec⟩ | ⟨r, hr, rfl⟩
  · rcases i.eq_splitOf_or_combineOf with ⟨o, rfl⟩ | ⟨o, rfl⟩
    · simp [hi, exec_splitOf_err hexec, splitOf_ne_combineOf]
    · have hcombine : ∃ o', combineOf o = combineOf o' := ⟨o, rfl⟩
      rcases exec_combineOf_err hexec with ⟨hodd, herr⟩ | ⟨heven, hout, herr⟩ | ⟨heven, hin, herr⟩
      · simp [hi, hcombine, hodd, herr]
      · simp [hi, hcombine, heven, hout, herr]
      · simpa [hi, hcombine, heven, herr] using hin
  · simp [hr, CommandFault.code]

/-! Several units. -/

/-- R114: a step of the system at `k` puts the next state of the unit there in its place. -/
theorem System.stepAt_of_next {units : System} {k : Nat} {s t : State} (hk : units[k]? = some s)
    (h : step s = .next t) :
    System.stepAt units k = some (.next (units.set k t)) := by
  simp only [System.stepAt, hk, h]

/-- Settles O47: `System.stepAt_of_next`, read at `k` and at every other index. -/
theorem unitsAreIndependent : Obligations.UnitsAreIndependent := by
  intro units k s t hk h
  have hlt : k < units.length := (List.getElem?_eq_some_iff.mp hk).1
  exact ⟨units.set k t, System.stepAt_of_next hk h, List.getElem?_set_self hlt,
    fun _ hj => List.getElem?_set_ne hj.symm⟩

end Sys2Proof.Machine

/-! PROOFS about reset, the parameters and the order of set-up: what a reset leaves, that no step changes
the parameters, and that writes of different cells, and a cell write and an `ILEN` write, commute. -/

namespace Sys2Proof.Machine

/-- Settles O41: a reset's next state is `resetUnit`, whose two buffers are empty. -/
theorem resetStepEffect : Obligations.ResetStepEffect := fun s =>
  ⟨resetUnit s, perform_reset_eq_next_iff.mpr rfl, Memory.read_nil, resetUnit_ilen s, Memory.read_nil,
    resetUnit_olen s, resetUnit_err s, resetUnit_params s⟩

/-- Settles O42: an idle step changes nothing, and any other step performs one event. -/
theorem parametersNeverChange : Obligations.ParametersNeverChange := by
  intro s t h
  rcases step_next h with ⟨-, rfl⟩ | ⟨e, es, -, hperform⟩
  · rfl
  · exact (perform_params hperform).trans (setPending_params s es)

/-! The order of set-up (R126). -/

/-- `Memory.write_comm` with the lower cell named. The rising order of the list is not needed: a write
goes before or onto the first listed cell that is not below its own. -/
theorem Memory.write_comm_of_lt (m : Memory) {i j : Nat} (v w : Byte) (h : i < j) :
    Memory.write (Memory.write m i v) j w = Memory.write (Memory.write m j w) i v := by
  have hji : ¬ j < i := by omega
  have hne : j ≠ i := by omega
  induction m with
  | nil => simp [Memory.write, h, hji, hne]
  | cons c m ih =>
    obtain ⟨b, x⟩ := c
    rcases lt_trichotomy i b with hib | rfl | hbi
    · rcases lt_trichotomy j b with hjb | rfl | hbj
      · simp [Memory.write, h, hji, hne, hib, hjb]
      · simp [Memory.write, h, hji, hne]
      · have hb : ¬ j < b ∧ j ≠ b := by omega
        simp [Memory.write, hji, hne, hib, hb]
    · simp [Memory.write, hji, hne]
    · have hi : ¬ i < b ∧ i ≠ b := by omega
      have hj : ¬ j < b ∧ j ≠ b := by omega
      simp [Memory.write, hi, hj, ih]

/-- Writes of different cells give the same memory in either order. -/
theorem Memory.write_comm (m : Memory) {i j : Nat} (v w : Byte) (h : i ≠ j) :
    Memory.write (Memory.write m i v) j w = Memory.write (Memory.write m j w) i v := by
  rcases Nat.lt_or_gt_of_ne h with hij | hji
  · exact Memory.write_comm_of_lt m v w hij
  · exact (Memory.write_comm_of_lt m w v hji).symm

theorem writeInput_comm {i j : Nat} (v w : Byte) (s : State) (h : i ≠ j) :
    writeInput j w (writeInput i v s) = writeInput i v (writeInput j w s) := by
  simp only [writeInput, Memory.write_comm s.ibuf v w h]

/-- R40: a write of an input cell that does not exist stops. -/
theorem perform_bufWrite_ibuf_of_not_exists {i : Nat} {s : State} (v : Byte)
    (h : ¬ inputCellExists s.params.cap i = true) :
    perform (.bufWrite .ibuf i v) s = .fault .noSuchInputCell := if_neg h

/-- Two writes of input cells complete exactly when both cells exist; which one is missing does not
show. -/
theorem performAll_bufWrite_bufWrite (i j : Nat) (v w : Byte) (s : State) :
    performAll [.bufWrite .ibuf i v, .bufWrite .ibuf j w] s =
      if inputCellExists s.params.cap i ∧ inputCellExists s.params.cap j then
        .next (writeInput j w (writeInput i v s))
      else .fault .noSuchInputCell := by
  by_cases hi : inputCellExists s.params.cap i = true
  · rw [performAll_cons_of_next _ (perform_bufWrite_ibuf_eq_next_iff.mpr ⟨hi, rfl⟩),
      performAll_singleton]
    by_cases hj : inputCellExists s.params.cap j = true
    · rw [if_pos ⟨hi, hj⟩]
      exact perform_bufWrite_ibuf_eq_next_iff.mpr ⟨hj, rfl⟩
    · rw [if_neg fun h => hj h.2]
      exact perform_bufWrite_ibuf_of_not_exists w hj
  · rw [if_neg fun h => hi h.1, performAll, perform_bufWrite_ibuf_of_not_exists v hi]

/-- Settles O39: the input cells commute by `writeInput_comm`, and `ILEN` is no cell. -/
theorem setUpOrderFree : Obligations.SetUpOrderFree := by
  intro s _
  refine ⟨fun i j v w hij => ?_, fun i v n hi hn => ?_⟩
  · rw [performAll_bufWrite_bufWrite, performAll_bufWrite_bufWrite, writeInput_comm v w s hij]
    simp only [and_comm]
  · calc performAll [.bufWrite .ibuf i v, .regWrite 2 n] s
        = perform (.regWrite 2 n) (writeInput i v s) := by
          rw [performAll_cons_of_next _ (perform_bufWrite_ibuf_eq_next_iff.mpr ⟨hi, rfl⟩),
            performAll_singleton]
      _ = .next (setInputLength n (writeInput i v s)) := perform_regWrite_ilen_of_legal hn
      _ = .next (writeInput i v (setInputLength n s)) := rfl
      _ = perform (.bufWrite .ibuf i v) (setInputLength n s) :=
          ((perform_bufWrite_ibuf_eq_next_iff (s := setInputLength n s)).mpr ⟨hi, rfl⟩).symm
      _ = performAll [.regWrite 2 n, .bufWrite .ibuf i v] s := by
          rw [performAll_cons_of_next _ (perform_regWrite_ilen_of_legal hn), performAll_singleton]

end Sys2Proof.Machine
